-- ==== Sys2Proof/Word.lean ====
section
/-! DEFINITION. The widths of the core's data (spec/00_scope.md R4, R5) and the five-word and 64-byte
groups that the compressor passes around. -/

namespace Sys2Proof

/-- One byte of the message or of the block buffer (R4). -/
abbrev Byte := BitVec 8

/-- One 32-bit word; nothing in this hardware is signed (R4, R6). -/
abbrev Word := BitVec 32

/-- One command word `CMD`, 16 bits (spec/30_encoding.md R45). -/
abbrev CmdWord := BitVec 16

/-- A block: exactly 64 bytes, index 0 first (R4 `BLOCK_BYTES`; spec/40_compressor.md R63). -/
abbrev Block := Vector Byte 64

/-- Five 32-bit words: the document's State, `H[0..4]` (spec/10_state.md R11). -/
structure Chain where
  h0 : Word
  h1 : Word
  h2 : Word
  h3 : Word
  h4 : Word
deriving DecidableEq, Repr

/-- The working variables `a, b, c, d, e` of one compression (spec/10_state.md R18). They are scratch:
no field of the machine's state holds them. -/
structure Work where
  a : Word
  b : Word
  c : Word
  d : Word
  e : Word
deriving DecidableEq, Repr

end Sys2Proof
end

