-- ==== Sys2Proof/Config.lean ====
section
/-! DEFINITION. What is fixed from outside the rules. The spec leaves no parameter open
(spec/92_eei_decisions.md, last row); the one thing here is the free value of a byte of `BUF` that no
command has written since the last reset. -/

namespace Sys2Proof

/-- FREE VALUE: what byte `i` of `BUF` holds after the `k`-th reset, until a command writes it
(spec/10_state.md R26: unspecified; spec/93_implementation_defined.md U6: any value). It has no body, so
nothing can be proved about which byte it is. DESIGN CHOICE (form), notes/assumptions/3.md: safe. -/
opaque Config.unspecifiedByte (k i : Nat) : Byte

end Sys2Proof
end

