-- ==== Sys2Proof/Syntax.lean ====
section
/-! DEFINITION. The instruction set: one constructor per row of spec/opcode_table.json. -/

namespace Sys2Proof

/-- The four commands (spec/30_encoding.md R47, R48). The only operand of the command set is the message
byte of `ABSORB`, an unsigned 8-bit value (R46). -/
inductive Instr where
  /-- `INIT`, the document's `new()` (spec/41_framer_commands.md R81). -/
  | init
  /-- `UPD0`, the document's `update` with no bytes (R82). -/
  | upd0
  /-- `ABSORB b`, the document's `update` with the one byte `b` (R83). -/
  | absorb (b : Byte)
  /-- `FINAL`, the document's `finalize()` (R84). -/
  | final
deriving DecidableEq, Repr

end Sys2Proof
end

