-- ==== Sys2Proof/WellFormed.lean ====
section
/-! DEFINITION. Well-formedness. Every term of `Instr` is a legal command: the one operand is a byte and
`ABSORB` admits all 256 of them (spec/30_encoding.md R46), so there is nothing to check about an `Instr`.
What can be ill formed is a 16-bit command word: the two checks below are R45 and R49 read as conditions
on its fields, written independently of `decode`. -/

namespace Sys2Proof

/-- The operation code of the word is one of the four assigned ones (R48, R49). -/
def CmdWord.opAssigned (c : CmdWord) : Bool :=
  1 ≤ c.toNat / 256 && c.toNat / 256 ≤ 4

/-- The data field is `0x00` unless the operation is `ABSORB` (R45: "must be `0x00` for every other
command"). -/
def CmdWord.dataAllowed (c : CmdWord) : Bool :=
  c.toNat / 256 == 3 || c.toNat % 256 == 0

/-- A command word is well formed when both checks pass. -/
def CmdWord.wf (c : CmdWord) : Bool :=
  CmdWord.opAssigned c && CmdWord.dataAllowed c

end Sys2Proof
end

