-- ==== Sys2Proof/Decode.lean ====
section
/-! DEFINITION. Command word to command and back (spec/30_encoding.md R45 to R49, R58). Decoding depends on
the word alone and is total; an illegal word is rejected under the name of what is wrong with it. -/

namespace Sys2Proof

/-- `op = CMD[15:8]` (R45). -/
def opField (c : CmdWord) : Byte := c.extractLsb' 8 8

/-- `data = CMD[7:0]`, unsigned, used as it is (R45, R46). -/
def dataField (c : CmdWord) : Byte := c.extractLsb' 0 8

/-- Why a word is illegal (R49). The hardware records only that it is (spec/60_exceptions.md R118). -/
inductive IllegalWord where
  /-- `op = 0x00` or `op >= 0x05`. -/
  | unassignedOp
  /-- `op` is that of `INIT`, `UPD0` or `FINAL` and `data` is not `0x00`. -/
  | nonzeroData
deriving DecidableEq, Repr

/-- The decoder's codomain: a command, or `ILLEGAL` with its reason (R47). -/
inductive Decoded where
  | command (i : Instr)
  | illegal (why : IllegalWord)
deriving DecidableEq, Repr

/-- A command whose `data` field carries no information: it must be `0x00` (R46, R49). -/
def withoutData (i : Instr) (data : Byte) : Decoded :=
  if data = 0x00 then .command i else .illegal .nonzeroData

/-- `decode(c)`, the opcode map (R47, R48). -/
def decode (c : CmdWord) : Decoded :=
  if opField c = 0x01 then withoutData .init (dataField c)
  else if opField c = 0x02 then withoutData .upd0 (dataField c)
  else if opField c = 0x03 then .command (.absorb (dataField c))
  else if opField c = 0x04 then withoutData .final (dataField c)
  else .illegal .unassignedOp

/-- A word from its two fields: `op` in bits 15:8, `data` in bits 7:0 (R45). -/
def joinFields (op data : Byte) : CmdWord := op ++ data

/-- `encode`, the inverse of `decode` on legal commands (R58). -/
def encode : Instr → CmdWord
  | .init => joinFields 0x01 0x00
  | .upd0 => joinFields 0x02 0x00
  | .absorb b => joinFields 0x03 b
  | .final => joinFields 0x04 0x00

/-- The command of a decoding, if it is one. -/
def Decoded.command? : Decoded → Option Instr
  | .command i => some i
  | .illegal _ => none

/-- The command word whose lowest `nbits` bits are `w` and whose other bits are 0. A command word is one
16-bit quantity and is not stored in any memory (spec/20_memory.md R37, R42), so no byte order enters.
DESIGN CHOICE, notes/assumptions/7.md: safe. -/
def tableWord (nbits w : Nat) : CmdWord := BitVec.ofNat 16 (w % 2 ^ nbits)

/-- What the decoder reads from the word the host numbers as spec/opcode_table.json does. A word of more
than 16 bits is no command (R51). -/
def decodeTableWord (nbits w : Nat) : Option Instr :=
  if w % 2 ^ nbits < 2 ^ 16 then (decode (tableWord nbits w)).command? else none

end Sys2Proof
end

