-- ==== Sys2Proof/Machine/Constants.lean ====
section
/-! DEFINITION. The constants of the hardware (spec/00_scope.md R4, spec/10_state.md R21). -/

namespace Sys2Proof.Machine

/-- `IV[0..4]`, the value of `H` after reset and after `INIT` (R21). -/
def iv : Chain :=
  { h0 := 0x67452301, h1 := 0xEFCDAB89, h2 := 0x98BADCFE, h3 := 0x10325476, h4 := 0xC3D2E1F0 }

/-- `K[p]`, the additive constant of phase `p` of the rounds, `p` = 0 to 3 (R21). -/
def kTable (p : Nat) : Word :=
  match p with
  | 0 => 0x5A827999
  | 1 => 0x6ED9EBA1
  | 2 => 0x8F1BBCDC
  | _ => 0xCA62C1D6

/-- `BLOCK_BYTES` (R4). -/
def blockBytes : Nat := 64

/-- `SCHED_WORDS` less the 16 loaded words: how many the recurrence adds (R4). -/
def expandedWords : Nat := 64

/-- `PAD_LIMIT`: the offset of the length field in the last frame (R4). -/
def padLimit : Nat := 56

/-- The bit length of the longest message, `2^64 - 8`: one more byte would not fit in `LEN`
(spec/60_exceptions.md R102). -/
def lenMax : BitVec 64 := 0xFFFFFFFFFFFFFFF8

/-- The terminator byte (spec/41_framer_commands.md R84 step 1). -/
def terminator : Byte := 0x80

end Sys2Proof.Machine
end

