-- ==== Sys2Proof/Machine/State.lean ====
section
/-! DEFINITION. The state of one instance of the core (spec/10_state.md R10), plain data. -/

namespace Sys2Proof.Machine

/-- `PHASE`, one bit: the framer's two-state machine (spec/10_state.md R15). Its coding as a bit is in
Machine/Flags.lean. -/
inductive Phase where
  /-- `PHASE` = 0. -/
  | accumulating
  /-- `PHASE` = 1. -/
  | finalized
deriving DecidableEq, Repr

/-- The value of `FAULT`, the 2-bit sticky cause register (R16). Its codes are in Machine/Flags.lean. -/
inductive FaultCode where
  /-- Code 0: no fault. -/
  | none
  /-- Code 1: `UPD0`, `ABSORB` or `FINAL` while finalized (spec/60_exceptions.md R101). -/
  | misuse
  /-- Code 2: `ABSORB` when the bit length would not fit (R102). -/
  | lenOvf
  /-- Code 3: an illegal command word (R103). -/
  | illegal
deriving DecidableEq, Repr

/-- What the host can apply to an instance: a run is a sequence of these (spec/70_reset_and_hazards.md
R133). -/
inductive Input where
  /-- The reset event (R120). -/
  | reset
  /-- A command word given at the command input (spec/41_framer_commands.md R80). -/
  | cmd (w : CmdWord)
deriving DecidableEq, Repr

/-- The bytes of `BUF` that have been written since the last reset, as (index, byte) pairs, indices
strictly rising. An index that is not listed holds no written byte (spec/10_state.md R12, R26). -/
abbrev Memory := List Host.Cell

/-- One instance. `buf`, `cnt`, `len`, `phase`, `fault` and `h` are the spec's (R10); `inputs` and `resets` are
the model's own: the input still to come and the number of resets so far, which indexes the free values of
unwritten `BUF` bytes. (`H` stands last only so that the checker, comparing two states field by field, comes to
the compressor's result last.) -/
structure State where
  /-- `BUF[0..63]` (R12). -/
  buf : Memory
  /-- `CNT`, 6 bits (R13). -/
  cnt : BitVec 6
  /-- `LEN`, 64 bits: the message length in bits (R14). -/
  len : BitVec 64
  /-- `PHASE` (R15). -/
  phase : Phase
  /-- `FAULT` (R16). -/
  fault : FaultCode
  /-- The commands and resets the host has still to apply, the next one first (R133).
  DEDUCED, notes/assumptions/1.md: safe. -/
  inputs : List Input
  /-- The number of reset events so far. DESIGN CHOICE, notes/assumptions/3.md: safe. -/
  resets : Nat
  /-- `H[0..4]` (R11). -/
  h : Chain
deriving DecidableEq, Repr

/-- The reasons for which the MACHINE stops with a fault: none. The spec's own faults `MISUSE`, `LEN_OVF`
and `ILLEGAL` are entered into the `FAULT` register and the machine goes on, ignoring commands
(spec/60_exceptions.md R104, R107); "there is no stuck state" (spec/41_framer_commands.md R80). So this
type has no constructor. -/
inductive Fault where
deriving DecidableEq, Repr

/-- The reasons for which the model gives an instruction no meaning. -/
inductive Refusal where
  /-- Raised by an arm of `exec` whose instruction has no meaning yet; no arm does now. Safe: the run
  stops. -/
  | notModelled (mnemonic : String)
deriving DecidableEq, Repr

/-- The state after reset (spec/10_state.md R26, spec/70_reset_and_hazards.md R120). `BUF` is unspecified:
nothing is listed. The model's own `inputs` is empty, the host having issued nothing yet, and `resets` is
0: DESIGN CHOICE, notes/assumptions/4.md. -/
def State.reset : State :=
  { buf := []
    cnt := 0
    len := 0
    phase := .accumulating
    fault := .none
    inputs := []
    resets := 0
    h := iv }

end Sys2Proof.Machine
end

