-- ==== Sys2Proof/Machine/Operands.lean ====
section
/-! DEFINITION. The arithmetic primitives of the compressor (spec/40_compressor.md R60 to R62) and the one
byte order of the hardware (spec/20_memory.md R30). The core's only command operand, the message byte of
`ABSORB`, is used as it is (spec/30_encoding.md R46) and needs no computation here. -/

namespace Sys2Proof.Machine

/-- Left rotation by a constant `n`, `1 <= n <= 31` (R60). -/
def rotl32 (x : Word) (n : Nat) : Word := (x <<< n) ||| (x >>> (32 - n))

/-- Addition modulo `2^32`; the carry out of bit 31 is discarded (R61). -/
def add32 (x y : Word) : Word := x + y

/-- Bitwise complement of a word, `0xFFFFFFFF - x` (R62; the document's `!`). -/
def not32 (x : Word) : Word := x ^^^ 0xFFFFFFFF

/-- `BE(A, i, n)` of the bytes `A[i], A[i+1], …`: the first byte is the most significant (R30). -/
def joinBE (bytes : List Byte) : Nat := bytes.foldl (fun v b => v * 256 + b.toNat) 0

/-- The `n`-byte big-endian image of `v`: byte `j` is `v[8(n-j)-1 : 8(n-j-1)]` (spec/00_scope.md R8
`MemWrite`). -/
def splitBE (n v : Nat) : List Byte :=
  (List.range n).map fun j => BitVec.ofNat 8 (v >>> (8 * (n - 1 - j)))

/-- Four bytes as one word, each zero-extended into its lane (R46; spec/40_compressor.md R64). -/
def wordBE (b0 b1 b2 b3 : Byte) : Word := BitVec.ofNat 32 (joinBE [b0, b1, b2, b3])

end Sys2Proof.Machine
end

