-- ==== Sys2Proof/Machine/Flags.lean ====
section
/-! DEFINITION. `PHASE` and `FAULT` as bits, and the `STATUS` view computed from them
(spec/10_state.md R15, R16, R22). There are no condition codes (R16, R24). -/

namespace Sys2Proof.Machine

/-- `PHASE` as its bit (R15). -/
def Phase.bit : Phase → BitVec 1
  | .accumulating => 0
  | .finalized => 1

/-- `FAULT` as its 2-bit code (R16; spec/60_exceptions.md R100). -/
def FaultCode.code : FaultCode → BitVec 2
  | .none => 0
  | .misuse => 1
  | .lenOvf => 2
  | .illegal => 3

/-- Frozen: `FAULT != 0` (spec/41_framer_commands.md R80, spec/60_exceptions.md R107). -/
def State.frozen (s : State) : Bool := s.fault.code != 0

/-- `DV`, digest valid: `PHASE` = 1 and `FAULT` = 0 (R22). -/
def State.digestValid (s : State) : Bool := s.phase.bit == 1 && s.fault.code == 0

/-- `STATUS`: bit 0 `FIN`, bits 2:1 `FAULT`, bit 3 `DV`, bits 7:4 zero (R22). A view: reading it changes
nothing (spec/20_memory.md R36). -/
def State.status (s : State) : BitVec 8 :=
  (0 : BitVec 4) ++ BitVec.ofBool s.digestValid ++ s.fault.code ++ s.phase.bit

end Sys2Proof.Machine
end

