-- ==== Sys2Proof/Machine/Compressor.lean ====
section
/-! DEFINITION. The Block Compressor (spec/40_compressor.md R60 to R73): a pure function of a state of five
words and a block of 64 bytes. Its scratch (`W`, `a..e`, `temp`, `t`) lives only inside it (R72). -/

namespace Sys2Proof.Machine

/-- Schedule load: `W[t]`, `t` = 0 to 15, is the big-endian reading of bytes `4t .. 4t+3` (R64). -/
def loadedWords (B : Block) : List Word :=
  (List.finRange 16).map fun t =>
    wordBE B[4 * t.val] B[4 * t.val + 1] B[4 * t.val + 2] B[4 * t.val + 3]

/-- The recurrence for `W[t]` from the words before it, `t` the number of words so far, at least 16, so
that every word read is there (R65). -/
def nextWord (W : List Word) (t : Nat) : Word :=
  rotl32 (W.getD (t - 3) 0 ^^^ W.getD (t - 8) 0 ^^^ W.getD (t - 14) 0 ^^^ W.getD (t - 16) 0) 1

/-- `k` more words of the schedule, in increasing `t` (R65). -/
def expandWords : Nat → List Word → List Word
  | 0, W => W
  | k + 1, W => expandWords k (W ++ [nextWord W W.length])

/-- The message schedule `W[0..79]` of a block (R64, R65). -/
def schedule (B : Block) : List Word := expandWords expandedWords (loadedWords B)

/-- The nonlinear function of round `t` (R67). -/
def roundF (t : Nat) (b c d : Word) : Word :=
  if t < 20 then (b &&& c) ||| (not32 b &&& d)
  else if t < 40 then b ^^^ c ^^^ d
  else if t < 60 then (b &&& c) ||| (b &&& d) ||| (c &&& d)
  else b ^^^ c ^^^ d

/-- The additive constant of round `t`, `K[t div 20]` (R68). -/
def Kt (t : Nat) : Word := kTable (t / 20)

/-- `temp`, the five-term sum of round `t` (R69). R61 leaves the order of a sum free; the constant stands
first, which keeps the checker from counting it down when the other terms are not numerals. -/
def roundTemp (t : Nat) (w : Word) (v : Work) : Word :=
  add32 (add32 (add32 (add32 (Kt t) (rotl32 v.a 5)) (roundF t v.b v.c v.d)) v.e) w

/-- Round `t` with schedule word `w`: the five variables are updated together (R69). -/
def roundStep (t : Nat) (w : Word) (v : Work) : Work :=
  { a := roundTemp t w v, b := v.a, c := rotl32 v.b 30, d := v.c, e := v.d }

/-- The rounds from `t` on, one for each remaining schedule word (R71). -/
def roundsFrom (t : Nat) : List Word → Work → Work
  | [], v => v
  | w :: W, v => roundsFrom (t + 1) W (roundStep t w v)

/-- Working-variable initialisation (R66). -/
def initWork (S : Chain) : Work := { a := S.h0, b := S.h1, c := S.h2, d := S.h3, e := S.h4 }

/-- Feed-forward (R70). -/
def feedForward (S : Chain) (v : Work) : Chain :=
  { h0 := add32 S.h0 v.a, h1 := add32 S.h1 v.b, h2 := add32 S.h2 v.c, h3 := add32 S.h3 v.d,
    h4 := add32 S.h4 v.e }

/-- `Compress(S, B)` (R71). Irreducible only so that no proof runs 80 rounds by unfolding it unasked; the
kernel evaluates it all the same. -/
@[irreducible] def compress (S : Chain) (B : Block) : Chain :=
  feedForward S (roundsFrom 0 (schedule B) (initWork S))

end Sys2Proof.Machine
end

