-- ==== Sys2Proof/Machine/Ops.lean ====
section
/-! DEFINITION. The shared operations: one setter per field, the block buffer, the fault entry and reset
(spec/20_memory.md R30 to R36, spec/60_exceptions.md R101 to R107, spec/70_reset_and_hazards.md R120). -/

namespace Sys2Proof.Machine

/-! ## One setter per field -/

/-- All five words of `H` together (spec/20_memory.md R35). -/
def State.setH (s : State) (v : Chain) : State := { s with h := v }
/-- The written part of `BUF`. -/
def State.setBuf (s : State) (v : Memory) : State := { s with buf := v }
/-- `CNT`. -/
def State.setCnt (s : State) (v : BitVec 6) : State := { s with cnt := v }
/-- `LEN`. -/
def State.setLen (s : State) (v : BitVec 64) : State := { s with len := v }
/-- `PHASE`. -/
def State.setPhase (s : State) (v : Phase) : State := { s with phase := v }
/-- `FAULT`. -/
def State.setFault (s : State) (v : FaultCode) : State := { s with fault := v }
/-- The input still to come. -/
def State.setInputs (s : State) (v : List Input) : State := { s with inputs := v }

/-! ## The block buffer -/

/-- The byte listed at index `i`, if one is. -/
def Memory.read : Memory → Nat → Option Byte
  | [], _ => none
  | (a, b) :: m, i => if a = i then some b else Memory.read m i

/-- Store byte `v` at index `i`, keeping the indices strictly rising. -/
def Memory.write : Memory → Nat → Byte → Memory
  | [], i, v => [(i, v)]
  | (a, b) :: m, i, v =>
    if i < a then (i, v) :: (a, b) :: m
    else if i = a then (i, v) :: m
    else (a, b) :: Memory.write m i v

/-- Store the bytes `vs` at indices `i, i+1, …` in order. -/
def Memory.writeAll (m : Memory) (i : Nat) : List Byte → Memory
  | [] => m
  | v :: vs => Memory.writeAll (Memory.write m i v) (i + 1) vs

/-- The indices are strictly rising, start at `lo` or above, and are indices of `BUF`, 0 to 63. -/
def Memory.rising (lo : Nat) : Memory → Bool
  | [] => true
  | (a, _) :: m => lo ≤ a && a < blockBytes && Memory.rising (a + 1) m

/-- The canonical form of the buffer's contents. Two buffers in it that agree at every index are the same
list. -/
def Memory.wf (m : Memory) : Bool := Memory.rising 0 m

/-- `BUF[i]`. A byte that nothing has written since the last reset is a free value
(spec/93_implementation_defined.md U6; notes/assumptions/3.md: safe). -/
def State.byteAt (s : State) (i : Nat) : Byte :=
  (Memory.read s.buf i).getD (Config.unspecifiedByte s.resets i)

/-- Store bytes to `BUF[i], BUF[i+1], …`. -/
def State.writeBytes (s : State) (i : Nat) (vs : List Byte) : State :=
  s.setBuf (Memory.writeAll s.buf i vs)

/-- `MemRead(i, n)` (spec/00_scope.md R8). -/
def State.memRead (s : State) (i n : Nat) : Nat :=
  joinBE ((List.range n).map fun j => s.byteAt (i + j))

/-- `MemWrite(i, n, v)` (spec/00_scope.md R8). -/
def State.memWrite (s : State) (i n v : Nat) : State := s.writeBytes i (splitBE n v)

/-- `for i in lo .. hi - 1: BUF[i] <- 0x00` (spec/41_framer_commands.md R84). -/
def State.zeroFill (s : State) (lo hi : Nat) : State :=
  s.writeBytes lo (List.replicate (hi - lo) 0x00)

/-- `BUF[0..63]` as the block given to `Compress`. -/
def State.block (s : State) : Block := Vector.ofFn fun i => s.byteAt i.val

/-- `H <- Compress(H, BUF[0..63])`, all five words at once (spec/40_compressor.md R71). -/
def State.compressBuf (s : State) : State := s.setH (compress s.h s.block)

/-! ## Fault entry, the frozen test, reset -/

/-- `raise X`: `FAULT` takes the code and nothing else is written (spec/60_exceptions.md R104). There is no
return from it (R107): only `applyReset` clears `FAULT`. -/
def raiseFault (x : FaultCode) (s : State) : State := s.setFault x

/-- The frozen test of `Step`: a frozen instance ignores the command, an unfrozen one takes its effect
(spec/41_framer_commands.md R80, spec/60_exceptions.md R107). -/
def ifLive (effect : State → State) (s : State) : State :=
  if s.frozen then s else effect s

/-- The phase test that opens `UPD0`, `ABSORB` and `FINAL`: `MISUSE` in the finalized phase
(spec/60_exceptions.md R101). -/
def ifAccumulating (effect : State → State) (s : State) : State :=
  match s.phase with
  | .finalized => raiseFault .misuse s
  | .accumulating => effect s

/-- An illegal command word: `ILLEGAL`, in either phase, unless frozen (spec/60_exceptions.md R103). -/
def illegalWord (s : State) : State := ifLive (raiseFault .illegal) s

/-- The reset event (spec/70_reset_and_hazards.md R120): every live component takes its reset value, frozen
or not; `BUF` is unspecified again, under a new number. What the host issues afterwards is not lost:
DEDUCED, notes/assumptions/5.md. -/
def applyReset (s : State) : State :=
  { State.reset with inputs := s.inputs, resets := s.resets + 1 }

/-- The host issues the command word `w` as the next input. -/
def issueFirst (s : State) (w : CmdWord) : State := s.setInputs (.cmd w :: s.inputs)

end Sys2Proof.Machine
end

