-- ==== Sys2Proof/Machine/Views.lean ====
section
/-! DEFINITION. The `DIGEST` view (spec/10_state.md R23, spec/41_framer_commands.md R88). The `STATUS` view
is in Machine/Flags.lean. -/

namespace Sys2Proof.Machine

/-- `Ser(S)`: 20 bytes, the words in index order, each big-endian (R88). -/
def ser (S : Chain) : List Byte :=
  [S.h0, S.h1, S.h2, S.h3, S.h4].flatMap fun w => splitBE 4 w.toNat

/-- `DIGEST[0..19]`: `Ser(H)` while `DV` = 1, otherwise no value at all (R23, spec/93 U7). A view: reading it
changes nothing (spec/20_memory.md R36). -/
def State.digest (s : State) : Option (List Byte) :=
  if s.digestValid then some (ser s.h) else none

end Sys2Proof.Machine
end

