-- ==== Sys2Proof/Machine/Framer.lean ====
section
/-! DEFINITION. The meanings of the four commands (spec/41_framer_commands.md R81 to R86). Each is given to
the instance in any state: a frozen one ignores it (R80), so the frozen test is part of each meaning. -/

namespace Sys2Proof.Machine

/-- The effect of `INIT` (R81): `H`, `CNT`, `LEN`, `PHASE`; `BUF` and `FAULT` are not written. -/
def initEffect (s : State) : State :=
  (((s.setH iv).setCnt 0).setLen 0).setPhase .accumulating

/-- The effect of `UPD0` while accumulating: none (R82). -/
def upd0Effect (s : State) : State := s

/-- The byte is stored at `CNT` and counted in `LEN` (R83). -/
def storeMessageByte (b : Byte) (s : State) : State :=
  (s.writeBytes s.cnt.toNat [b]).setLen (s.len + 8)

/-- The block boundary test after a byte has been stored (R83): the 64th byte compresses the block and
returns `CNT` to 0, any other advances `CNT`. -/
def advanceCount (s : State) : State :=
  if s.cnt = 63 then s.compressBuf.setCnt 0 else s.setCnt (s.cnt + 1)

/-- The effect of `ABSORB b` while accumulating (R83): `LEN_OVF` when `LEN + 8` would not fit, else the byte
is absorbed. -/
def absorbEffect (b : Byte) (s : State) : State :=
  if s.len = lenMax then raiseFault .lenOvf s else advanceCount (storeMessageByte b s)

/-- Padding steps 1 and 2 (R84, R85), from `n - 1` pending bytes: the terminator and the zero fill of the
last frame up to the length field, with an intermediate frame compressed first when the length field does
not fit behind the terminator. -/
def padToLength (n : Nat) (s : State) : State :=
  let t := s.writeBytes (n - 1) [terminator]
  if n ≤ padLimit then t.zeroFill n padLimit
  else ((t.zeroFill n blockBytes).compressBuf).zeroFill 0 padLimit

/-- The effect of `FINAL` while accumulating (R84 to R86). -/
def finalEffect (s : State) : State :=
  let t := padToLength (s.cnt.toNat + 1) s
  ((t.memWrite padLimit 8 t.len.toNat).compressBuf.setCnt 0).setPhase .finalized

/-- `INIT` (R81). -/
def execInit (s : State) : Host.Outcome State Fault Refusal :=
  .next (ifLive initEffect s)

/-- `UPD0` (R82). -/
def execUpd0 (s : State) : Host.Outcome State Fault Refusal :=
  .next (ifLive (ifAccumulating upd0Effect) s)

/-- `ABSORB b` (R83). -/
def execAbsorb (b : Byte) (s : State) : Host.Outcome State Fault Refusal :=
  .next (ifLive (ifAccumulating (absorbEffect b)) s)

/-- `FINAL` (R84). -/
def execFinal (s : State) : Host.Outcome State Fault Refusal :=
  .next (ifLive (ifAccumulating finalEffect) s)

end Sys2Proof.Machine
end

