-- ==== Sys2Proof/Machine/Deliver.lean ====
section
/-! DEFINITION. How an input reaches the instance: `Step(c)` for a command word, the reset event, and an
instance to which nothing is given (spec/41_framer_commands.md R80, spec/70_reset_and_hazards.md R120,
R133). -/

namespace Sys2Proof.Machine

/-- `Step(c)` (R80): the word is decoded, a command runs, an illegal word raises `ILLEGAL`. The frozen test
that R80 puts first stands inside each meaning and inside `illegalWord`; decoding has no effect, so the
order cannot be seen (DEDUCED, notes/assumptions/6.md). -/
def deliver (c : CmdWord) (s : State) : Host.Outcome State Fault Refusal :=
  match decode c with
  | .command i => exec i s
  | .illegal _ => .next (illegalWord s)

/-- One input applied to the instance (R133). -/
def applyInput (e : Input) (s : State) : Host.Outcome State Fault Refusal :=
  match e with
  | .reset => .next (applyReset s)
  | .cmd c => deliver c s

/-- Take the next input and apply it, one at a time in the order issued (spec/20_memory.md R38). When the
host issues nothing the instance holds its state (spec/60_exceptions.md R117, R133; DEDUCED,
notes/assumptions/2.md). -/
def advance (s : State) : Host.Outcome State Fault Refusal :=
  match s.inputs with
  | [] => .next s
  | e :: rest => applyInput e (s.setInputs rest)

end Sys2Proof.Machine
end

