-- ==== Sys2Proof/Machine/Step.lean ====
section
/-! DEFINITION. One step of the machine, and the host's way of giving it a command word. -/

namespace Sys2Proof.Machine

/-- One step: the next input is taken and applied (Machine/Deliver.lean). -/
def step (s : State) : Host.Outcome State Fault Refusal := advance s

/-- `s` with the given command word as the very next input: the core has no stored program, every command
is supplied by the host (spec/10_state.md R17). -/
def State.withFetchWord (s : State) (nbits w : Nat) : State := issueFirst s (tableWord nbits w)

end Sys2Proof.Machine
end

