-- ==== Sys2Proof/Machine/Message.lean ====
section
/-! DEFINITION. The whole-message function `Hash` (spec/41_framer_commands.md R90), the chaining of blocks
(spec/40_compressor.md R73), and the pseudo-operations and line forms that stand for commands
(spec/30_encoding.md R52 to R56). The machine's step uses none of this: claims do. -/

namespace Sys2Proof.Machine

/-- Slice `k` of a byte sequence, bytes `64k .. 64k+63` (spec/10_state.md R25). Used only where the sequence
is at least that long. -/
def blockAt (bytes : List Byte) (k : Nat) : Block :=
  Vector.ofFn fun i => bytes.getD (blockBytes * k + i.val) 0

/-- The first `n` blocks of a byte sequence folded into a state, in order (R73). -/
def chainBlocks (S : Chain) (bytes : List Byte) : Nat → Chain
  | 0 => S
  | n + 1 => compress (chainBlocks S bytes n) (blockAt bytes n)

/-- `z = (55 - n) mod 64`, the number of zero bytes of the padding (R90). -/
def padZeros (n : Nat) : Nat := (55 + 64 - n % 64) % 64

/-- `Pad(M)` (R90). -/
def pad (M : List Byte) : List Byte :=
  M ++ [terminator] ++ List.replicate (padZeros M.length) 0x00 ++ splitBE 8 (8 * M.length)

/-- `Hash(M)`, the digest of a message of fewer than `2^61` bytes (R90). -/
def hashMsg (M : List Byte) : List Byte :=
  ser (chainBlocks iv (pad M) ((pad M).length / blockBytes))

/-- `new` (R53). -/
def newOp : List Instr := [.init]

/-- `update <bytes>` (R54). -/
def updateOp (bytes : List Byte) : List Instr := .upd0 :: bytes.map .absorb

/-- `finalize` (R55). -/
def finalizeOp : List Instr := [.final]

/-- `hash <message>` (R56). -/
def hashOp (M : List Byte) : List Instr := newOp ++ updateOp M ++ finalizeOp

/-- One line of a command sequence, past its spelling (R52): a command, a raw word (`.word`), or a
pseudo-operation. How a line is written in characters is notation only (spec/92_eei_decisions.md D6). -/
inductive Line where
  | command (i : Instr)
  | word (c : CmdWord)
  | new
  | update (bytes : List Byte)
  | finalize
  | hash (M : List Byte)
deriving DecidableEq, Repr

/-- The command words a line stands for (R52 to R56, R58). -/
def Line.words : Line → List CmdWord
  | .command i => [encode i]
  | .word c => [c]
  | .new => newOp.map encode
  | .update bytes => (updateOp bytes).map encode
  | .finalize => finalizeOp.map encode
  | .hash M => (hashOp M).map encode

/-- The command words of a whole sequence of lines, in order (R52). -/
def programWords (lines : List Line) : List CmdWord := lines.flatMap Line.words

end Sys2Proof.Machine
end

