-- ==== Sys2Proof/Safety.lean ====
section
/-! DEFINITION. The terms that claims about runs are stated in: several steps, the state invariant of the
core, and the equality of what is live. -/

namespace Sys2Proof.Machine

/-- `n` steps, stopping at the first fault or refusal. -/
def steps : Nat → State → Host.Outcome State Fault Refusal
  | 0, s => .next s
  | n + 1, s =>
    match step s with
    | .next s' => steps n s'
    | .fault r => .fault r
    | .refused r => .refused r

/-- The inputs that give the commands `is` to the instance, one word each (spec/30_encoding.md R58). -/
def commandInputs (is : List Instr) : List Input := is.map fun i => .cmd (encode i)

/-- What holds between commands in every state a run can reach (spec/10_state.md R12 to R16, R22, R25). -/
structure Inv (s : State) : Prop where
  /-- The buffer's contents are in canonical form and inside indices 0 to 63 (the model's own). -/
  bufCanonical : Memory.wf s.buf = true
  /-- Every live byte of the buffer has been written (R12). -/
  liveBytesStored : ∀ i, i < s.cnt.toNat → (Memory.read s.buf i).isSome = true
  /-- `LEN` is a multiple of 8 (R14). -/
  lenWholeBytes : s.len.toNat % 8 = 0
  /-- While accumulating, `CNT` is the byte count modulo 64 (R25, spec/60_exceptions.md R114). -/
  cntFollowsLen : s.phase = .accumulating → s.cnt.toNat = s.len.toNat / 8 % 64
  /-- After `FINAL`, `CNT` is 0 (spec/41_framer_commands.md R84). -/
  cntAfterFinal : s.phase = .finalized → s.cnt = 0
  /-- `MISUSE` stands only in the finalized phase (spec/60_exceptions.md R101). -/
  misuseFinalized : s.fault = .misuse → s.phase = .finalized
  /-- `LEN_OVF` stands only in the accumulating phase at the longest length (R102). -/
  lenOvfAtMax : s.fault = .lenOvf → s.phase = .accumulating ∧ s.len = lenMax

/-- Two states agree in everything live: every field but the dead bytes of `BUF` and the number of resets
(spec/10_state.md R10, R12). -/
structure LiveEq (s t : State) : Prop where
  h : s.h = t.h
  cnt : s.cnt = t.cnt
  len : s.len = t.len
  phase : s.phase = t.phase
  fault : s.fault = t.fault
  inputs : s.inputs = t.inputs
  /-- The live bytes `BUF[0 .. CNT-1]`. -/
  pending : ∀ i, i < s.cnt.toNat → s.byteAt i = t.byteAt i

end Sys2Proof.Machine
end

