-- ==== Sys2Proof/Certificates/Slice0/Obligations.lean ====
section
/-! DEFINITION. The statements for the provers, from the numbered rules of spec/. Where a docstring calls a rule
derived, the spec marks it so: it is the spec's own inference from the rules it names. None of the statements
rests on the value of a byte of `BUF` that nothing has written (Config.unspecifiedByte). -/

open Sys2Proof Sys2Proof.Machine

/-! ## Encoding (spec/30_encoding.md) -/

/-- spec/95_test_vectors.md section 3.3: the listed words decode as listed, the reason of an illegal one being
the model's own. -/
def Obligations.DecodeOfListedWords : Prop :=
  decode 0x0100 = .command .init ∧ decode 0x0200 = .command .upd0 ∧
  decode 0x0300 = .command (.absorb 0x00) ∧ decode 0x0361 = .command (.absorb 0x61) ∧
  decode 0x0380 = .command (.absorb 0x80) ∧ decode 0x03FF = .command (.absorb 0xFF) ∧
  decode 0x0400 = .command .final ∧
  decode 0x0000 = .illegal .unassignedOp ∧ decode 0x0001 = .illegal .unassignedOp ∧
  decode 0x0101 = .illegal .nonzeroData ∧ decode 0x0280 = .illegal .nonzeroData ∧
  decode 0x04FF = .illegal .nonzeroData ∧ decode 0x0500 = .illegal .unassignedOp ∧
  decode 0x8100 = .illegal .unassignedOp ∧ decode 0xFFFF = .illegal .unassignedOp

/-- R48: a word selects a command exactly when it matches the command's row, `c & mask = match`, the operand
of `ABSORB` being the low byte; there are 259 legal words. -/
def Obligations.DecodeSelectsTableRow : Prop :=
  (∀ c : CmdWord,
    (decode c = .command .init ↔ c &&& 0xFFFF = 0x0100) ∧
    (decode c = .command .upd0 ↔ c &&& 0xFFFF = 0x0200) ∧
    (∀ b : Byte, decode c = .command (.absorb b) ↔ c &&& 0xFF00 = 0x0300 ∧ c.extractLsb' 0 8 = b) ∧
    (decode c = .command .final ↔ c &&& 0xFFFF = 0x0400)) ∧
  ∃ legal : List CmdWord, legal.Nodup ∧ legal.length = 259 ∧
    ∀ c, c ∈ legal ↔ ∃ i, decode c = .command i

/-- R49: which words are illegal, how many they are, and that such a word given to an unfrozen instance raises
`ILLEGAL` and changes nothing else. -/
def Obligations.IllegalWordsRaiseIllegal : Prop :=
  (∀ c : CmdWord, (∃ why, decode c = .illegal why) ↔
    (c.toNat / 256 = 0 ∨ 5 ≤ c.toNat / 256 ∨
      ((c.toNat / 256 = 1 ∨ c.toNat / 256 = 2 ∨ c.toNat / 256 = 4) ∧ c.toNat % 256 ≠ 0))) ∧
  (∃ illegal : List CmdWord, illegal.Nodup ∧ illegal.length = 65277 ∧ 0x0000 ∈ illegal ∧
    0xFFFF ∈ illegal ∧ ∀ c, c ∈ illegal ↔ ∃ why, decode c = .illegal why) ∧
  ∀ (s : State) (c : CmdWord) (rest : List Input) (why : IllegalWord),
    s.fault = .none → s.inputs = .cmd c :: rest → decode c = .illegal why →
      step s = .next { s with inputs := rest, fault := .illegal }

/-- R58 (derived from R47): the encoder's words, and that encoder and decoder are inverse to each other on legal
commands, with every operand. -/
def Obligations.DecodeEncodeRoundTrip : Prop :=
  encode .init = 0x0100 ∧ encode .upd0 = 0x0200 ∧ (∀ b, (encode (.absorb b)).toNat = 0x0300 + b.toNat) ∧
  encode .final = 0x0400 ∧
  (∀ i, decode (encode i) = .command i) ∧
  ∀ c i, decode c = .command i → encode i = c

/-- The well-formedness checks on a word (R45, R49 read as conditions on its fields) accept exactly the words
that decode to a command. -/
def Obligations.WellFormedWordsAreCommands : Prop :=
  ∀ c : CmdWord, CmdWord.wf c = true ↔ ∃ i, decode c = .command i

/-- R52 to R56: what the pseudo-operations and a raw word stand for, as command words. -/
def Obligations.PseudoOperationsExpand : Prop :=
  (∀ c, (Line.word c).words = [c]) ∧ Line.new.words = [0x0100] ∧ Line.finalize.words = [0x0400] ∧
  (∀ bytes, (Line.update bytes).words = 0x0200 :: bytes.map fun b => encode (.absorb b)) ∧
  (∀ M, (Line.hash M).words = Line.new.words ++ (Line.update M).words ++ Line.finalize.words) ∧
  ∀ M, (Line.hash M).words.length = M.length + 3

/-! ## Steps (spec/41_framer_commands.md R80, spec/60_exceptions.md, spec/70_reset_and_hazards.md) -/

/-- When the next input is a word that decodes to a command, a step is `exec` of that command in the state with
that input taken. -/
def Obligations.StepRunsDecodedCommand : Prop :=
  ∀ (s : State) (c : CmdWord) (rest : List Input) (i : Instr),
    s.inputs = .cmd c :: rest → decode c = .command i → step s = exec i { s with inputs := rest }

/-- A word placed as the next input is what the next step runs: the host's `withFetchWord`. The stream is the
model's own field (notes/assumptions/1.md), the word's numbering the model's choice (notes/assumptions/7.md). -/
def Obligations.PlacedWordRunsNext : Prop :=
  ∀ (s : State) (i : Instr), step (s.withFetchWord 16 (encode i).toNat) = exec i s

/-- R80, `Step(c)`: frozen, illegal, or the command's rule; and the outcome is always a state. -/
def Obligations.StepFollowsCommandWord : Prop :=
  (∀ (s : State) (c : CmdWord) (rest : List Input), s.inputs = .cmd c :: rest →
    (s.fault ≠ .none → step s = .next { s with inputs := rest }) ∧
    (s.fault = .none →
      (∀ why, decode c = .illegal why → step s = .next { s with inputs := rest, fault := .illegal }) ∧
      ∀ i, decode c = .command i → step s = exec i { s with inputs := rest })) ∧
  (∀ s, ∃ t, step s = .next t) ∧ ∀ i s, ∃ t, exec i s = .next t

/-- An instance to which nothing is given holds its state. That a step may find no input is the model's own
(notes/assumptions/2.md); that the idle instance holds its state is R117. -/
def Obligations.IdleInstanceHoldsState : Prop :=
  ∀ s : State, s.inputs = [] → step s = .next s

/-- R38: inputs are taken one at a time in the order issued; the executed command never changes what is still to
come (the stream is the model's own field, notes/assumptions/1.md). -/
def Obligations.InputsTakenInOrder : Prop :=
  ∀ s t : State, step s = .next t → t.inputs = s.inputs.tail

/-- R107: a frozen instance ignores every command word, legal or not; its `FAULT` never changes but to 0,
by reset. -/
def Obligations.FrozenUntilReset : Prop :=
  (∀ (s : State) (i : Instr), s.fault ≠ .none → exec i s = .next s) ∧
  (∀ (s : State) (c : CmdWord) (rest : List Input), s.fault ≠ .none → s.inputs = .cmd c :: rest →
    step s = .next { s with inputs := rest }) ∧
  ∀ s t : State, s.fault ≠ .none → step s = .next t →
    t.fault = s.fault ∨ (t.fault = .none ∧ ∃ rest, s.inputs = .reset :: rest)

/-- R105, R101: the order of the fault tests, as the value of `FAULT` after any command word. -/
def Obligations.FaultTestsInOrder : Prop :=
  ∀ (s t : State) (c : CmdWord) (rest : List Input), s.inputs = .cmd c :: rest → step s = .next t →
    (s.fault ≠ .none → t.fault = s.fault) ∧
    (s.fault = .none → (∃ why, decode c = .illegal why) → t.fault = .illegal) ∧
    (s.fault = .none → decode c = .command .init → t.fault = .none) ∧
    (s.fault = .none → (decode c = .command .upd0 ∨ (∃ b, decode c = .command (.absorb b)) ∨
        decode c = .command .final) → s.phase = .finalized → t.fault = .misuse) ∧
    (s.fault = .none → (∃ b, decode c = .command (.absorb b)) → s.phase = .accumulating →
        s.len = 0xFFFFFFFFFFFFFFF8 → t.fault = .lenOvf) ∧
    (s.fault = .none → (∃ b, decode c = .command (.absorb b)) → s.phase = .accumulating →
        s.len ≠ 0xFFFFFFFFFFFFFFF8 → t.fault = .none) ∧
    (s.fault = .none → (decode c = .command .upd0 ∨ decode c = .command .final) →
        s.phase = .accumulating → t.fault = .none)

/-- R104: the fault entry writes the cause's code to `FAULT` and nothing else, `STATUS` shows it, and `DIGEST` has
no value. -/
def Obligations.FaultEntryWritesOnlyFault : Prop :=
  ∀ s t : State, s.fault = .none → step s = .next t → t.fault ≠ .none →
    (∃ c rest, s.inputs = .cmd c :: rest ∧ t = { s with inputs := rest, fault := t.fault }) ∧
    ((t.fault = .misuse ∧ t.status.extractLsb' 1 2 = 1) ∨ (t.fault = .lenOvf ∧ t.status.extractLsb' 1 2 = 2) ∨
      (t.fault = .illegal ∧ t.status.extractLsb' 1 2 = 3)) ∧
    t.status.getLsbD 3 = false ∧ t.digest = none

/-- R89: the phase machine of an unfrozen instance, as the values of `PHASE` and `FAULT` after each row. -/
def Obligations.PhaseMachine : Prop :=
  ∀ (s t : State) (c : CmdWord) (rest : List Input),
    s.fault = .none → s.inputs = .cmd c :: rest → step s = .next t →
      (decode c = .command .init → t.phase = .accumulating ∧ t.fault = .none) ∧
      (decode c = .command .upd0 → t.phase = s.phase ∧
        (s.phase = .accumulating → t.fault = .none) ∧ (s.phase = .finalized → t.fault = .misuse)) ∧
      (∀ b, decode c = .command (.absorb b) → t.phase = s.phase ∧
        (s.phase = .accumulating → s.len ≠ 0xFFFFFFFFFFFFFFF8 → t.fault = .none) ∧
        (s.phase = .accumulating → s.len = 0xFFFFFFFFFFFFFFF8 → t.fault = .lenOvf) ∧
        (s.phase = .finalized → t.fault = .misuse)) ∧
      (decode c = .command .final → t.phase = .finalized ∧
        (s.phase = .accumulating → t.fault = .none) ∧ (s.phase = .finalized → t.fault = .misuse)) ∧
      ∀ why, decode c = .illegal why → t.phase = s.phase ∧ t.fault = .illegal

/-- R120: the reset event, from any state, frozen or not, and nothing else clears a fault. Two clauses are the
model's own choice: `BUF`, which R120 calls unspecified, holds no written byte (notes/assumptions/3.md, 5.md), and
what is still to come stays (notes/assumptions/5.md). -/
def Obligations.ResetEventResetsLiveState : Prop :=
  (∀ (s : State) (rest : List Input), s.inputs = .reset :: rest →
    ∃ t, step s = .next t ∧
      t.h = { h0 := 0x67452301, h1 := 0xEFCDAB89, h2 := 0x98BADCFE, h3 := 0x10325476, h4 := 0xC3D2E1F0 } ∧
      t.cnt = 0 ∧ t.len = 0 ∧ t.phase = .accumulating ∧ t.fault = .none ∧ t.inputs = rest ∧
      ∀ i, Memory.read t.buf i = none) ∧
  ∀ s t : State, s.fault ≠ .none → step s = .next t → t.fault = .none →
    ∃ rest, s.inputs = .reset :: rest

/-- R26: what reset leaves; `INIT` gives the same live state from any unfrozen state. That `BUF`, which R26 calls
unspecified, holds no written byte is the model's own choice (notes/assumptions/3.md, 4.md). -/
def Obligations.ResetValues : Prop :=
  State.reset.h =
    { h0 := 0x67452301, h1 := 0xEFCDAB89, h2 := 0x98BADCFE, h3 := 0x10325476, h4 := 0xC3D2E1F0 } ∧
  State.reset.cnt = 0 ∧ State.reset.len = 0 ∧ State.reset.phase = .accumulating ∧
  State.reset.fault = .none ∧ (∀ i, Memory.read State.reset.buf i = none) ∧
  State.reset.status = 0x00 ∧ State.reset.digest = none ∧
  ∀ s : State, s.fault = .none →
    ∃ t, exec .init s = .next t ∧ LiveEq t { State.reset with inputs := s.inputs }

/-- R124 (derived from R120 and R81): reset clears `FAULT` and works on a frozen instance, `INIT` is ignored by one;
on an unfrozen instance they give the same live state. -/
def Obligations.ResetAgainstInit : Prop :=
  ∀ (s : State) (rest : List Input),
    ∃ t u, step { s with inputs := .cmd 0x0100 :: rest } = .next t ∧
      step { s with inputs := .reset :: rest } = .next u ∧ u.fault = .none ∧
      (s.fault = .none → LiveEq t u) ∧ (s.fault ≠ .none → t = { s with inputs := rest })

/-! ## The four commands (spec/41_framer_commands.md) -/

/-- R81: `INIT` on an unfrozen instance completes in either phase; `BUF` and `FAULT` are not written; a frozen
one ignores it. -/
def Obligations.InitCommand : Prop :=
  ∀ s : State,
    (s.fault = .none → exec .init s = .next { s with
      h := { h0 := 0x67452301, h1 := 0xEFCDAB89, h2 := 0x98BADCFE, h3 := 0x10325476, h4 := 0xC3D2E1F0 },
      cnt := 0, len := 0, phase := .accumulating }) ∧
    (s.fault ≠ .none → exec .init s = .next s)

/-- R82: `UPD0` changes nothing while accumulating and raises `MISUSE` when finalized. -/
def Obligations.Upd0Command : Prop :=
  ∀ s : State, s.fault = .none →
    (s.phase = .accumulating → exec .upd0 s = .next s) ∧
    (s.phase = .finalized → exec .upd0 s = .next { s with fault := .misuse })

/-- R83: `ABSORB b`. The byte is stored at `CNT`, `LEN` grows by 8 (exactly, `LEN` being a multiple of 8), the
64th byte compresses the block; `MISUSE` is tested first, then `LEN_OVF`, and either writes `FAULT` alone. -/
def Obligations.AbsorbCommand : Prop :=
  ∀ (s : State) (b : Byte), s.fault = .none →
    (s.phase = .finalized → exec (.absorb b) s = .next { s with fault := .misuse }) ∧
    (s.phase = .accumulating → s.len = 0xFFFFFFFFFFFFFFF8 →
      exec (.absorb b) s = .next { s with fault := .lenOvf }) ∧
    (s.phase = .accumulating → s.len ≠ 0xFFFFFFFFFFFFFFF8 →
      ∃ t, exec (.absorb b) s = .next t ∧
        t.byteAt s.cnt.toNat = b ∧ (∀ i, i ≠ s.cnt.toNat → t.byteAt i = s.byteAt i) ∧
        t.len = s.len + 8 ∧ (s.len.toNat % 8 = 0 → t.len.toNat = s.len.toNat + 8) ∧
        t.phase = .accumulating ∧ t.fault = .none ∧ t.inputs = s.inputs ∧ t.resets = s.resets ∧
        (s.cnt ≠ 63 → t.h = s.h ∧ t.cnt.toNat = s.cnt.toNat + 1) ∧
        (s.cnt = 63 → t.cnt = 0 ∧
          t.h = compress s.h (Vector.ofFn fun i : Fin 64 => if i.val = 63 then b else s.byteAt i.val)))

/-- R84, R85, R86: `FINAL`. With at most 55 pending bytes one frame is compressed, with 56 to 63 two; the last
frame ends in `LEN`, big-endian, and stays in `BUF`; a second `FINAL` raises `MISUSE`. -/
def Obligations.FinalCommand : Prop :=
  ∀ s : State, s.fault = .none →
    (s.phase = .finalized → exec .final s = .next { s with fault := .misuse }) ∧
    (s.phase = .accumulating → s.cnt.toNat ≤ 55 →
      let frame : Block := Vector.ofFn fun i : Fin 64 =>
        if i.val < s.cnt.toNat then s.byteAt i.val else if i.val = s.cnt.toNat then 0x80
        else if i.val < 56 then 0x00 else s.len.extractLsb' (8 * (63 - i.val)) 8
      ∃ t, exec .final s = .next t ∧ t.h = compress s.h frame ∧ (∀ i : Fin 64, t.byteAt i.val = frame[i]) ∧
        t.cnt = 0 ∧ t.len = s.len ∧ t.phase = .finalized ∧ t.fault = .none ∧
        t.inputs = s.inputs ∧ t.resets = s.resets) ∧
    (s.phase = .accumulating → 56 ≤ s.cnt.toNat →
      let first : Block := Vector.ofFn fun i : Fin 64 =>
        if i.val < s.cnt.toNat then s.byteAt i.val else if i.val = s.cnt.toNat then 0x80 else 0x00
      let last : Block := Vector.ofFn fun i : Fin 64 =>
        if i.val < 56 then 0x00 else s.len.extractLsb' (8 * (63 - i.val)) 8
      ∃ t, exec .final s = .next t ∧ t.h = compress (compress s.h first) last ∧
        (∀ i : Fin 64, t.byteAt i.val = last[i]) ∧
        t.cnt = 0 ∧ t.len = s.len ∧ t.phase = .finalized ∧ t.fault = .none ∧
        t.inputs = s.inputs ∧ t.resets = s.resets)

/-- R102: at the longest length `2^64 - 8` one more byte raises `LEN_OVF`, while `FINAL` succeeds and writes the
length field `FF FF FF FF FF FF FF F8`; at any smaller length an accumulating instance takes the byte. -/
def Obligations.LongestMessage : Prop :=
  ∀ s : State, s.fault = .none → s.phase = .accumulating →
    (s.len = 0xFFFFFFFFFFFFFFF8 →
      (∀ b, exec (.absorb b) s = .next { s with fault := .lenOvf }) ∧
      ∃ t, exec .final s = .next t ∧ t.fault = .none ∧ t.phase = .finalized ∧
        (∀ i, 56 ≤ i ∧ i ≤ 62 → t.byteAt i = 0xFF) ∧ t.byteAt 63 = 0xF8) ∧
    (s.len ≠ 0xFFFFFFFFFFFFFFF8 →
      ∀ b, ∃ t, exec (.absorb b) s = .next t ∧ t.fault = .none ∧ t.len = s.len + 8)

/-- The frame of `INIT` and `UPD0`, which store no byte: every index of `BUF` reads as before. `INIT` may write
`H`, `CNT`, `LEN`, `PHASE`; `UPD0` only `FAULT` (R29 and R34, both derived). -/
def Obligations.InitUpd0Frame : Prop :=
  ∀ s t : State,
    (exec .init s = .next t → t.fault = s.fault ∧ t.inputs = s.inputs ∧ t.resets = s.resets ∧
      ∀ a, Memory.read t.buf a = Memory.read s.buf a) ∧
    (exec .upd0 s = .next t → t.h = s.h ∧ t.cnt = s.cnt ∧ t.len = s.len ∧ t.phase = s.phase ∧
      t.inputs = s.inputs ∧ t.resets = s.resets ∧ ∀ a, Memory.read t.buf a = Memory.read s.buf a)

/-- The frame of `ABSORB b`: it never writes `PHASE`, writes `H` only at a block boundary, and stores to index
`CNT` alone; when it faults it writes `FAULT` alone (R29 and R34, both derived). -/
def Obligations.AbsorbFrame : Prop :=
  ∀ (s t : State) (b : Byte), exec (.absorb b) s = .next t →
    t.phase = s.phase ∧ t.inputs = s.inputs ∧ t.resets = s.resets ∧
    (s.cnt ≠ 63 → t.h = s.h) ∧
    (∀ a, a ≠ s.cnt.toNat → Memory.read t.buf a = Memory.read s.buf a) ∧
    (t.fault ≠ s.fault → t = { s with fault := t.fault })

/-- The frame of `FINAL`: it never writes `LEN`; it stores to indices `CNT .. 63` when the frame is one, to
`0 .. 63` when there are two, and to nothing outside; when it faults it writes `FAULT` alone (R29 and R34, both
derived). -/
def Obligations.FinalFrame : Prop :=
  ∀ s t : State, exec .final s = .next t →
    t.len = s.len ∧ t.inputs = s.inputs ∧ t.resets = s.resets ∧
    (∀ a, (s.cnt.toNat ≤ 55 ∧ a < s.cnt.toNat) ∨ 64 ≤ a → Memory.read t.buf a = Memory.read s.buf a) ∧
    (t.fault ≠ s.fault → t = { s with fault := t.fault })

/-- R36 (derived from R81 to R84): `INIT` and `UPD0` are idempotent, a second `FINAL` faults. -/
def Obligations.CommandsGivenTwice : Prop :=
  (∀ s t : State, exec .init s = .next t → exec .init t = .next t) ∧
  (∀ s t : State, exec .upd0 s = .next t → exec .upd0 t = .next t) ∧
  ∀ s t : State, s.fault = .none → s.phase = .accumulating → exec .final s = .next t →
    exec .final t = .next { t with fault := .misuse }

/-- R43 (derived from R81 and R12): `INIT` alone makes an unfrozen instance independent of everything absorbed
before it. -/
def Obligations.InitForgetsMessage : Prop :=
  ∀ s t : State, s.fault = .none → t.fault = .none → s.inputs = t.inputs →
    ∃ s' t', exec .init s = .next s' ∧ exec .init t = .next t' ∧ LiveEq s' t'

/-! ## The compressor (spec/40_compressor.md) -/

/-- R60: the rotation, as a sum and bit by bit. -/
def Obligations.RotationBits : Prop :=
  ∀ (x : Word) (n : Nat), 1 ≤ n → n ≤ 31 →
    (rotl32 x n).toNat = x.toNat * 2 ^ n % 2 ^ 32 + x.toNat / 2 ^ (32 - n) ∧
    ∀ i, i < 32 → (rotl32 x n).getLsbD i = x.getLsbD ((i + (32 - n)) % 32)

/-- R61: addition modulo `2^32` in any grouping; and the complement of R62. -/
def Obligations.AdditionAndComplement : Prop :=
  (∀ x y : Word, (add32 x y).toNat = (x.toNat + y.toNat) % 2 ^ 32 ∧ add32 x y = add32 y x) ∧
  (∀ x y z : Word, add32 (add32 x y) z = add32 x (add32 y z) ∧
    (add32 (add32 x y) z).toNat = (x.toNat + y.toNat + z.toNat) % 2 ^ 32) ∧
  ∀ x : Word, (not32 x).toNat = 0xFFFFFFFF - x.toNat ∧ ∀ i, i < 32 → (not32 x).getLsbD i = !x.getLsbD i

/-- R67: the nonlinear function bit by bit: select, parity, majority, parity. -/
def Obligations.NonlinearFunctionBits : Prop :=
  ∀ (t : Nat) (b c d : Word) (i : Nat), t ≤ 79 → i < 32 →
    (t ≤ 19 → (roundF t b c d).getLsbD i = if b.getLsbD i then c.getLsbD i else d.getLsbD i) ∧
    ((20 ≤ t ∧ t ≤ 39) ∨ 60 ≤ t →
      (roundF t b c d).getLsbD i = (b.getLsbD i ^^ c.getLsbD i ^^ d.getLsbD i)) ∧
    (40 ≤ t ∧ t ≤ 59 → (roundF t b c d).getLsbD i =
      (b.getLsbD i && c.getLsbD i || b.getLsbD i && d.getLsbD i || c.getLsbD i && d.getLsbD i))

/-- R68: the additive constant of each round. -/
def Obligations.RoundConstants : Prop :=
  ∀ t, t ≤ 79 →
    (t ≤ 19 → Kt t = 0x5A827999) ∧ (20 ≤ t ∧ t ≤ 39 → Kt t = 0x6ED9EBA1) ∧
    (40 ≤ t ∧ t ≤ 59 → Kt t = 0x8F1BBCDC) ∧ (60 ≤ t → Kt t = 0xCA62C1D6)

/-- R64: there are 80 schedule words and the first 16 are the block's words, big-endian. -/
def Obligations.ScheduleLoad : Prop :=
  ∀ B : Block, (schedule B).length = 80 ∧
    ∀ t (ht : t < 16), ((schedule B).getD t 0).toNat =
      B[4 * t].toNat * 2 ^ 24 + B[4 * t + 1].toNat * 2 ^ 16 + B[4 * t + 2].toNat * 2 ^ 8 +
        B[4 * t + 3].toNat

/-- R65: the recurrence for the other 64. -/
def Obligations.ScheduleRecurrence : Prop :=
  ∀ (B : Block) (t : Nat), 16 ≤ t → t ≤ 79 →
    (schedule B).getD t 0 = rotl32 ((schedule B).getD (t - 3) 0 ^^^ (schedule B).getD (t - 8) 0 ^^^
      (schedule B).getD (t - 14) 0 ^^^ (schedule B).getD (t - 16) 0) 1

/-- R31 (derived from R30 and R64): byte `k` of a block is bits `[31 - 8(k mod 4) : 24 - 8(k mod 4)]` of schedule
word `k div 4`. -/
def Obligations.BlockByteLane : Prop :=
  ∀ (B : Block) (k : Nat) (hk : k < 64),
    ((schedule B).getD (k / 4) 0).extractLsb' (24 - 8 * (k % 4)) 8 = B[k]

/-- R69: one round, all five variables from their old values. -/
def Obligations.RoundUpdate : Prop :=
  ∀ (t : Nat) (w : Word) (v : Work), t ≤ 79 →
    (roundStep t w v).a.toNat = ((rotl32 v.a 5).toNat + (roundF t v.b v.c v.d).toNat + v.e.toNat + w.toNat +
      (Kt t).toNat) % 2 ^ 32 ∧
    (roundStep t w v).b = v.a ∧ (roundStep t w v).c = rotl32 v.b 30 ∧ (roundStep t w v).d = v.c ∧
    (roundStep t w v).e = v.d

/-- R71: `Compress` is the composition of load, expansion, 80 rounds and feed-forward: whatever words `W` and
working variables `V` follow the rules, the result is the state plus `V 80`. -/
def Obligations.CompressIsComposition : Prop :=
  ∀ (S : Chain) (B : Block) (W : Nat → Word) (V : Nat → Work),
    (∀ t (ht : t < 16), W t = B[4 * t] ++ B[4 * t + 1] ++ B[4 * t + 2] ++ B[4 * t + 3]) →
    (∀ t, 16 ≤ t → t ≤ 79 → W t = rotl32 (W (t - 3) ^^^ W (t - 8) ^^^ W (t - 14) ^^^ W (t - 16)) 1) →
    V 0 = { a := S.h0, b := S.h1, c := S.h2, d := S.h3, e := S.h4 } →
    (∀ t, t ≤ 79 → V (t + 1) =
      { a := rotl32 (V t).a 5 + roundF t (V t).b (V t).c (V t).d + (V t).e + W t + Kt t
        b := (V t).a, c := rotl32 (V t).b 30, d := (V t).c, e := (V t).d }) →
    compress S B = { h0 := S.h0 + (V 80).a, h1 := S.h1 + (V 80).b, h2 := S.h2 + (V 80).c,
                     h3 := S.h3 + (V 80).d, h4 := S.h4 + (V 80).e }

/-! ## Byte order and the block buffer (spec/20_memory.md, spec/00_scope.md R8) -/

/-- R8, R30: `MemWrite(i, n, v)` stores byte `j` as `v[8(n-j)-1 : 8(n-j-1)]` and leaves every other byte;
`MemRead(i, n)` then gives `v` back. -/
def Obligations.MemWriteThenMemRead : Prop :=
  ∀ (s : State) (i n v : Nat),
    (∀ j, j < n → (s.memWrite i n v).byteAt (i + j) = BitVec.ofNat 8 (v / 2 ^ (8 * (n - j - 1)))) ∧
    (∀ a, a < i ∨ i + n ≤ a → (s.memWrite i n v).byteAt a = s.byteAt a) ∧
    (s.memWrite i n v).memRead i n = v % 2 ^ (8 * n)

/-- R64: when the block is `BUF`, schedule word `t` is `MemRead(4t, 4)`. -/
def Obligations.ScheduleReadsBuffer : Prop :=
  ∀ (s : State) (t : Nat), t < 16 → ((schedule s.block).getD t 0).toNat = s.memRead (4 * t) 4

/-- The canonical form of the buffer's contents (the model's own, notes/assumptions/3.md): two canonical contents
that read alike at every index are the same list. -/
def Obligations.CanonicalBuffersAreEqual : Prop :=
  ∀ m n : Memory, Memory.wf m = true → Memory.wf n = true →
    (∀ i, Memory.read m i = Memory.read n i) → m = n

/-- R86's last clause (derived from R64): the length field of a frame is schedule words 14 and 15. -/
def Obligations.LengthFieldWords : Prop :=
  ∀ (B : Block) (len : BitVec 64),
    (∀ j (hj : j < 8), B[56 + j] = len.extractLsb' (56 - 8 * j) 8) →
      (schedule B).getD 14 0 = len.extractLsb' 32 32 ∧ (schedule B).getD 15 0 = len.extractLsb' 0 32

/-! ## The views (spec/10_state.md R22, R23, spec/41_framer_commands.md R88) -/

/-- R22: the fields of `STATUS`. -/
def Obligations.StatusFields : Prop :=
  ∀ s : State,
    (s.status.getLsbD 0 = true ↔ s.phase = .finalized) ∧
    (s.status.extractLsb' 1 2 = 0 ↔ s.fault = .none) ∧ (s.status.extractLsb' 1 2 = 1 ↔ s.fault = .misuse) ∧
    (s.status.extractLsb' 1 2 = 2 ↔ s.fault = .lenOvf) ∧
    (s.status.extractLsb' 1 2 = 3 ↔ s.fault = .illegal) ∧
    (s.status.getLsbD 3 = true ↔ s.phase = .finalized ∧ s.fault = .none) ∧
    s.status.extractLsb' 4 4 = 0

/-- R22's last clause (derived from R80, R101 and R102): the six values `STATUS` can have. -/
def Obligations.StatusValues : Prop :=
  ∀ s : State, Inv s →
    s.status = 0x00 ∨ s.status = 0x09 ∨ s.status = 0x04 ∨ s.status = 0x06 ∨ s.status = 0x03 ∨
      s.status = 0x07

/-- R88: the digest's bytes: 20 of them, word by word, most significant first. -/
def Obligations.SerialisedBytes : Prop :=
  ∀ S : Chain, (ser S).length = 20 ∧ ∀ j, j < 4 →
    (ser S)[j]? = some (S.h0.extractLsb' (24 - 8 * j) 8) ∧
    (ser S)[4 + j]? = some (S.h1.extractLsb' (24 - 8 * j) 8) ∧
    (ser S)[8 + j]? = some (S.h2.extractLsb' (24 - 8 * j) 8) ∧
    (ser S)[12 + j]? = some (S.h3.extractLsb' (24 - 8 * j) 8) ∧
    (ser S)[16 + j]? = some (S.h4.extractLsb' (24 - 8 * j) 8)

/-- R23: `DIGEST` is `Ser(H)` when `DV` = 1 and has no value otherwise; and (derived from R89) while it has one it
does not change. -/
def Obligations.DigestView : Prop :=
  (∀ s : State, (s.status.getLsbD 3 = true → s.digest = some (ser s.h)) ∧
    (s.status.getLsbD 3 = false → s.digest = none)) ∧
  ∀ s t : State, step s = .next t → s.digest ≠ none → t.digest ≠ none → t.digest = s.digest

/-! ## Whole-machine rules -/

/-- R11, R29 (derived): `H` changes only by reset, by `INIT`, by an `ABSORB` at a block boundary and by a `FINAL`. -/
def Obligations.StateWordsWrittenOnly : Prop :=
  ∀ s t : State, step s = .next t → t.h ≠ s.h →
    (∃ rest, s.inputs = .reset :: rest) ∨
    ∃ c rest, s.inputs = .cmd c :: rest ∧ s.fault = .none ∧
      (decode c = .command .init ∨
       (s.phase = .accumulating ∧ (decode c = .command .final ∨
         (s.cnt = 63 ∧ ∃ b, decode c = .command (.absorb b)))))

/-- R14: `LEN` never wraps: a step keeps it, adds exactly 8, or sets it to 0 by reset or `INIT`. -/
def Obligations.LengthNeverWraps : Prop :=
  ∀ s t : State, Inv s → step s = .next t →
    t.len.toNat = s.len.toNat ∨ t.len.toNat = s.len.toNat + 8 ∨
      (t.len = 0 ∧ ((∃ rest, s.inputs = .reset :: rest) ∨
        ∃ c rest, s.inputs = .cmd c :: rest ∧ decode c = .command .init))

/-- The invariant holds after reset. -/
def Obligations.ResetMeetsInvariant : Prop := Inv State.reset

/-- Every step keeps the invariant. -/
def Obligations.StepKeepsInvariant : Prop :=
  ∀ s t : State, Inv s → step s = .next t → Inv t

/-- R12, R27, R92 (derived from R80): dead bytes of `BUF` are never seen. Two states that agree in everything live
still do after a step, and show the same `STATUS` and `DIGEST`. -/
def Obligations.DeadBytesNeverSeen : Prop :=
  ∀ s t s' t' : State, LiveEq s t → step s = .next s' → step t = .next t' →
    LiveEq s' t' ∧ s'.status = t'.status ∧ s'.digest = t'.digest

/-- R25 (derived from R81, R83 and R84): after a reset, or an `INIT` on an unfrozen instance, and then the bytes `m`
with any `UPD0` between them, the live state is that of `m`. -/
def Obligations.LiveStateAfterBytes : Prop :=
  ∀ (s : State) (start : Input) (cs : List Instr) (m : List Byte) (rest : List Input),
    start = .reset ∨ (start = .cmd 0x0100 ∧ s.fault = .none) →
    (cs.filter fun i => decide (i ≠ .upd0)) = m.map .absorb → m.length < 2 ^ 61 →
    s.inputs = start :: (commandInputs cs ++ rest) →
      ∃ t, steps (cs.length + 1) s = .next t ∧ t.fault = .none ∧ t.phase = .accumulating ∧
        t.inputs = rest ∧ t.len.toNat = 8 * m.length ∧ t.cnt.toNat = m.length % 64 ∧
        (∀ i, i < m.length % 64 → m[64 * (m.length / 64) + i]? = some (t.byteAt i)) ∧
        t.h = chainBlocks iv m (m.length / 64)

/-- R90 (derived from R81 to R88), with R25 and R123 for the start from reset: the padded length, and that after
a reset, or an `INIT` on an unfrozen instance, the bytes of `M` with any `UPD0` between them, and `FINAL`, end with
the digest of `M`. -/
def Obligations.HashOfMessage : Prop :=
  ∀ (s : State) (start : Input) (cs : List Instr) (M : List Byte) (rest : List Input),
    start = .reset ∨ (start = .cmd 0x0100 ∧ s.fault = .none) →
    (cs.filter fun i => decide (i ≠ .upd0)) = M.map .absorb → M.length < 2 ^ 61 →
    s.inputs = start :: (commandInputs (cs ++ [.final]) ++ rest) →
      (pad M).length = 64 * ((M.length + 8) / 64 + 1) ∧
      ∃ t, steps (cs.length + 2) s = .next t ∧ t.fault = .none ∧ t.phase = .finalized ∧
        t.digest = some (hashMsg M) ∧ t.inputs = rest

/-- R102: a message of `2^61` bytes or more never gets a digest: after a reset, or an `INIT` on an unfrozen
instance, its bytes with any `UPD0` between them, and `FINAL`, end in `LEN_OVF`. -/
def Obligations.OverlongMessageFaults : Prop :=
  ∀ (s : State) (start : Input) (cs : List Instr) (M : List Byte) (rest : List Input),
    start = .reset ∨ (start = .cmd 0x0100 ∧ s.fault = .none) →
    (cs.filter fun i => decide (i ≠ .upd0)) = M.map .absorb → 2 ^ 61 ≤ M.length →
    s.inputs = start :: (commandInputs (cs ++ [.final]) ++ rest) →
      ∃ t, steps (cs.length + 2) s = .next t ∧ t.fault = .lenOvf ∧ t.digest = none

/-- R91 (derived from R82 and R54): chunking invariance. However `M` is cut into chunks, the `update`s of the chunks
and one `update` of `M` lead to the same state. -/
def Obligations.ChunkingInvariance : Prop :=
  ∀ (s : State) (chunks : List (List Byte)) (rest : List Input), s.phase = .accumulating →
    steps (chunks.flatMap updateOp).length
        { s with inputs := commandInputs (chunks.flatMap updateOp) ++ rest } =
      steps (updateOp chunks.flatten).length
        { s with inputs := commandInputs (updateOp chunks.flatten) ++ rest }
end

