-- ==== Sys2Proof/Laws/State.lean ====
section
/-! SUPPORT. One lemma per field per setter, so that no later proof unfolds a record update; the same for the
buffer operations and the reset event, and the views of a state after a setter. -/

namespace Sys2Proof.Machine

variable (s : State)

@[simp] theorem State.setH_h (v : Chain) : (s.setH v).h = v := rfl
@[simp] theorem State.setH_buf (v : Chain) : (s.setH v).buf = s.buf := rfl
@[simp] theorem State.setH_cnt (v : Chain) : (s.setH v).cnt = s.cnt := rfl
@[simp] theorem State.setH_len (v : Chain) : (s.setH v).len = s.len := rfl
@[simp] theorem State.setH_phase (v : Chain) : (s.setH v).phase = s.phase := rfl
@[simp] theorem State.setH_fault (v : Chain) : (s.setH v).fault = s.fault := rfl
@[simp] theorem State.setH_inputs (v : Chain) : (s.setH v).inputs = s.inputs := rfl
@[simp] theorem State.setH_resets (v : Chain) : (s.setH v).resets = s.resets := rfl

@[simp] theorem State.setBuf_h (v : Memory) : (s.setBuf v).h = s.h := rfl
@[simp] theorem State.setBuf_buf (v : Memory) : (s.setBuf v).buf = v := rfl
@[simp] theorem State.setBuf_cnt (v : Memory) : (s.setBuf v).cnt = s.cnt := rfl
@[simp] theorem State.setBuf_len (v : Memory) : (s.setBuf v).len = s.len := rfl
@[simp] theorem State.setBuf_phase (v : Memory) : (s.setBuf v).phase = s.phase := rfl
@[simp] theorem State.setBuf_fault (v : Memory) : (s.setBuf v).fault = s.fault := rfl
@[simp] theorem State.setBuf_inputs (v : Memory) : (s.setBuf v).inputs = s.inputs := rfl
@[simp] theorem State.setBuf_resets (v : Memory) : (s.setBuf v).resets = s.resets := rfl

@[simp] theorem State.setCnt_h (v : BitVec 6) : (s.setCnt v).h = s.h := rfl
@[simp] theorem State.setCnt_buf (v : BitVec 6) : (s.setCnt v).buf = s.buf := rfl
@[simp] theorem State.setCnt_cnt (v : BitVec 6) : (s.setCnt v).cnt = v := rfl
@[simp] theorem State.setCnt_len (v : BitVec 6) : (s.setCnt v).len = s.len := rfl
@[simp] theorem State.setCnt_phase (v : BitVec 6) : (s.setCnt v).phase = s.phase := rfl
@[simp] theorem State.setCnt_fault (v : BitVec 6) : (s.setCnt v).fault = s.fault := rfl
@[simp] theorem State.setCnt_inputs (v : BitVec 6) : (s.setCnt v).inputs = s.inputs := rfl
@[simp] theorem State.setCnt_resets (v : BitVec 6) : (s.setCnt v).resets = s.resets := rfl

@[simp] theorem State.setLen_h (v : BitVec 64) : (s.setLen v).h = s.h := rfl
@[simp] theorem State.setLen_buf (v : BitVec 64) : (s.setLen v).buf = s.buf := rfl
@[simp] theorem State.setLen_cnt (v : BitVec 64) : (s.setLen v).cnt = s.cnt := rfl
@[simp] theorem State.setLen_len (v : BitVec 64) : (s.setLen v).len = v := rfl
@[simp] theorem State.setLen_phase (v : BitVec 64) : (s.setLen v).phase = s.phase := rfl
@[simp] theorem State.setLen_fault (v : BitVec 64) : (s.setLen v).fault = s.fault := rfl
@[simp] theorem State.setLen_inputs (v : BitVec 64) : (s.setLen v).inputs = s.inputs := rfl
@[simp] theorem State.setLen_resets (v : BitVec 64) : (s.setLen v).resets = s.resets := rfl

@[simp] theorem State.setPhase_h (v : Phase) : (s.setPhase v).h = s.h := rfl
@[simp] theorem State.setPhase_buf (v : Phase) : (s.setPhase v).buf = s.buf := rfl
@[simp] theorem State.setPhase_cnt (v : Phase) : (s.setPhase v).cnt = s.cnt := rfl
@[simp] theorem State.setPhase_len (v : Phase) : (s.setPhase v).len = s.len := rfl
@[simp] theorem State.setPhase_phase (v : Phase) : (s.setPhase v).phase = v := rfl
@[simp] theorem State.setPhase_fault (v : Phase) : (s.setPhase v).fault = s.fault := rfl
@[simp] theorem State.setPhase_inputs (v : Phase) : (s.setPhase v).inputs = s.inputs := rfl
@[simp] theorem State.setPhase_resets (v : Phase) : (s.setPhase v).resets = s.resets := rfl

@[simp] theorem State.setFault_h (v : FaultCode) : (s.setFault v).h = s.h := rfl
@[simp] theorem State.setFault_buf (v : FaultCode) : (s.setFault v).buf = s.buf := rfl
@[simp] theorem State.setFault_cnt (v : FaultCode) : (s.setFault v).cnt = s.cnt := rfl
@[simp] theorem State.setFault_len (v : FaultCode) : (s.setFault v).len = s.len := rfl
@[simp] theorem State.setFault_phase (v : FaultCode) : (s.setFault v).phase = s.phase := rfl
@[simp] theorem State.setFault_fault (v : FaultCode) : (s.setFault v).fault = v := rfl
@[simp] theorem State.setFault_inputs (v : FaultCode) : (s.setFault v).inputs = s.inputs := rfl
@[simp] theorem State.setFault_resets (v : FaultCode) : (s.setFault v).resets = s.resets := rfl

@[simp] theorem State.setInputs_h (v : List Input) : (s.setInputs v).h = s.h := rfl
@[simp] theorem State.setInputs_buf (v : List Input) : (s.setInputs v).buf = s.buf := rfl
@[simp] theorem State.setInputs_cnt (v : List Input) : (s.setInputs v).cnt = s.cnt := rfl
@[simp] theorem State.setInputs_len (v : List Input) : (s.setInputs v).len = s.len := rfl
@[simp] theorem State.setInputs_phase (v : List Input) : (s.setInputs v).phase = s.phase := rfl
@[simp] theorem State.setInputs_fault (v : List Input) : (s.setInputs v).fault = s.fault := rfl
@[simp] theorem State.setInputs_inputs (v : List Input) : (s.setInputs v).inputs = v := rfl
@[simp] theorem State.setInputs_resets (v : List Input) : (s.setInputs v).resets = s.resets := rfl

@[simp] theorem State.writeBytes_h (i : Nat) (vs : List Byte) : (s.writeBytes i vs).h = s.h := rfl
@[simp] theorem State.writeBytes_cnt (i : Nat) (vs : List Byte) : (s.writeBytes i vs).cnt = s.cnt := rfl
@[simp] theorem State.writeBytes_len (i : Nat) (vs : List Byte) : (s.writeBytes i vs).len = s.len := rfl
@[simp] theorem State.writeBytes_phase (i : Nat) (vs : List Byte) : (s.writeBytes i vs).phase = s.phase := rfl
@[simp] theorem State.writeBytes_fault (i : Nat) (vs : List Byte) : (s.writeBytes i vs).fault = s.fault := rfl
@[simp] theorem State.writeBytes_inputs (i : Nat) (vs : List Byte) : (s.writeBytes i vs).inputs = s.inputs := rfl
@[simp] theorem State.writeBytes_resets (i : Nat) (vs : List Byte) : (s.writeBytes i vs).resets = s.resets := rfl
@[simp] theorem State.writeBytes_buf (i : Nat) (vs : List Byte) :
    (s.writeBytes i vs).buf = Memory.writeAll s.buf i vs := rfl

@[simp] theorem State.memWrite_h (i n v : Nat) : (s.memWrite i n v).h = s.h := rfl
@[simp] theorem State.memWrite_cnt (i n v : Nat) : (s.memWrite i n v).cnt = s.cnt := rfl
@[simp] theorem State.memWrite_len (i n v : Nat) : (s.memWrite i n v).len = s.len := rfl
@[simp] theorem State.memWrite_phase (i n v : Nat) : (s.memWrite i n v).phase = s.phase := rfl
@[simp] theorem State.memWrite_fault (i n v : Nat) : (s.memWrite i n v).fault = s.fault := rfl
@[simp] theorem State.memWrite_inputs (i n v : Nat) : (s.memWrite i n v).inputs = s.inputs := rfl
@[simp] theorem State.memWrite_resets (i n v : Nat) : (s.memWrite i n v).resets = s.resets := rfl

@[simp] theorem State.zeroFill_h (lo hi : Nat) : (s.zeroFill lo hi).h = s.h := rfl
@[simp] theorem State.zeroFill_cnt (lo hi : Nat) : (s.zeroFill lo hi).cnt = s.cnt := rfl
@[simp] theorem State.zeroFill_len (lo hi : Nat) : (s.zeroFill lo hi).len = s.len := rfl
@[simp] theorem State.zeroFill_phase (lo hi : Nat) : (s.zeroFill lo hi).phase = s.phase := rfl
@[simp] theorem State.zeroFill_fault (lo hi : Nat) : (s.zeroFill lo hi).fault = s.fault := rfl
@[simp] theorem State.zeroFill_inputs (lo hi : Nat) : (s.zeroFill lo hi).inputs = s.inputs := rfl
@[simp] theorem State.zeroFill_resets (lo hi : Nat) : (s.zeroFill lo hi).resets = s.resets := rfl

@[simp] theorem State.compressBuf_h : s.compressBuf.h = compress s.h s.block := by
  rw [State.compressBuf, State.setH_h]
@[simp] theorem State.compressBuf_buf : s.compressBuf.buf = s.buf := by
  rw [State.compressBuf, State.setH_buf]
@[simp] theorem State.compressBuf_cnt : s.compressBuf.cnt = s.cnt := by
  rw [State.compressBuf, State.setH_cnt]
@[simp] theorem State.compressBuf_len : s.compressBuf.len = s.len := by
  rw [State.compressBuf, State.setH_len]
@[simp] theorem State.compressBuf_phase : s.compressBuf.phase = s.phase := by
  rw [State.compressBuf, State.setH_phase]
@[simp] theorem State.compressBuf_fault : s.compressBuf.fault = s.fault := by
  rw [State.compressBuf, State.setH_fault]
@[simp] theorem State.compressBuf_inputs : s.compressBuf.inputs = s.inputs := by
  rw [State.compressBuf, State.setH_inputs]
@[simp] theorem State.compressBuf_resets : s.compressBuf.resets = s.resets := by
  rw [State.compressBuf, State.setH_resets]

@[simp] theorem applyReset_h : (applyReset s).h = iv := rfl
@[simp] theorem applyReset_buf : (applyReset s).buf = [] := rfl
@[simp] theorem applyReset_cnt : (applyReset s).cnt = 0 := rfl
@[simp] theorem applyReset_len : (applyReset s).len = 0 := rfl
@[simp] theorem applyReset_phase : (applyReset s).phase = .accumulating := rfl
@[simp] theorem applyReset_fault : (applyReset s).fault = .none := rfl
@[simp] theorem applyReset_inputs : (applyReset s).inputs = s.inputs := rfl
@[simp] theorem applyReset_resets : (applyReset s).resets = s.resets + 1 := rfl

/-- Setting the inputs twice keeps the second. -/
@[simp] theorem State.setInputs_setInputs (v w : List Input) :
    (s.setInputs v).setInputs w = s.setInputs w := rfl

/-- Setting the inputs to what they are changes nothing. -/
@[simp] theorem State.setInputs_self : s.setInputs s.inputs = s := rfl

/-- Setting `FAULT` to what it is changes nothing. -/
@[simp] theorem State.setFault_self : s.setFault s.fault = s := rfl

/-! ## The views -/

/-- Frozen means that `FAULT` holds a fault. -/
theorem State.frozen_eq_false_iff : s.frozen = false ↔ s.fault = .none := by
  unfold State.frozen; cases s.fault <;> decide

/-- Frozen means that `FAULT` holds a fault. -/
theorem State.frozen_eq_true_iff : s.frozen = true ↔ s.fault ≠ .none := by
  unfold State.frozen; cases s.fault <;> decide

/-- `DV` is 1 exactly when the instance is finalized and unfrozen. -/
theorem State.digestValid_iff : s.digestValid = true ↔ s.phase = .finalized ∧ s.fault = .none := by
  unfold State.digestValid; cases s.phase <;> cases s.fault <;> decide

/-- The `DIGEST` view has a value exactly when `DV` is 1. -/
theorem State.digest_ne_none_iff : s.digest ≠ none ↔ s.phase = .finalized ∧ s.fault = .none := by
  rw [← State.digestValid_iff]; unfold State.digest; split <;> simp_all

/-- The value of the `DIGEST` view when `DV` is 1. -/
theorem State.digest_of_valid (hp : s.phase = .finalized) (hf : s.fault = .none) :
    s.digest = some (ser s.h) := by
  rw [State.digest, if_pos (s.digestValid_iff.2 ⟨hp, hf⟩)]

end Sys2Proof.Machine
end

