-- ==== Sys2Proof/Laws/Buffer.lean ====
section
/-! SUPPORT. The laws of the block buffer: read after write, the canonical form, and what each buffer
operation leaves at every index. -/

namespace Sys2Proof.Machine

/-! ## One byte -/

/-- A read after a write: the byte written at its own index, what was there at every other. -/
theorem Memory.read_write (m : Memory) (i : Nat) (v : Byte) (j : Nat) :
    Memory.read (Memory.write m i v) j = if j = i then some v else Memory.read m j := by
  induction m with
  | nil => simp [Memory.write, Memory.read, eq_comm]
  | cons p m ih =>
    obtain ⟨a, b⟩ := p
    simp only [Memory.write]
    by_cases h1 : i < a
    · rw [if_pos h1]; simp only [Memory.read, eq_comm]
    · rw [if_neg h1]
      by_cases h2 : i = a
      · subst h2; rw [if_pos rfl]; simp only [Memory.read, eq_comm]; split_ifs <;> rfl
      · rw [if_neg h2, Memory.read, Memory.read, ih]
        split_ifs <;> first | rfl | omega

/-- A lower bound of the indices may be lowered. -/
theorem Memory.rising_mono {lo lo' : Nat} {m : Memory} (h : Memory.rising lo m = true) (hl : lo' ≤ lo) :
    Memory.rising lo' m = true := by
  cases m with
  | nil => rfl
  | cons p m =>
    simp only [Memory.rising, Bool.and_eq_true, decide_eq_true_eq] at h ⊢
    exact ⟨⟨Nat.le_trans hl h.1.1, h.1.2⟩, h.2⟩

/-- A write inside the buffer keeps the canonical form. -/
theorem Memory.rising_write {m : Memory} {lo i : Nat} (v : Byte) (h : Memory.rising lo m = true)
    (hlo : lo ≤ i) (hi : i < 64) : Memory.rising lo (Memory.write m i v) = true := by
  induction m generalizing lo with
  | nil => simp [Memory.write, Memory.rising, blockBytes, hlo, hi]
  | cons p m ih =>
    obtain ⟨a, b⟩ := p
    simp only [Memory.rising, Bool.and_eq_true, decide_eq_true_eq, blockBytes] at h
    simp only [Memory.write]
    split_ifs with h1 h2
    · simp only [Memory.rising, Bool.and_eq_true, decide_eq_true_eq, blockBytes]
      exact ⟨⟨hlo, decide_eq_true hi⟩,
        ⟨by omega, h.1.2⟩, h.2⟩
    · subst h2
      simp only [Memory.rising, Bool.and_eq_true, decide_eq_true_eq, blockBytes]
      exact h
    · simp only [Memory.rising, Bool.and_eq_true, decide_eq_true_eq, blockBytes]
      exact ⟨h.1, ih h.2 (by omega)⟩

/-- A write inside the buffer keeps the canonical form. -/
theorem Memory.wf_write {m : Memory} {i : Nat} (v : Byte) (h : Memory.wf m = true) (hi : i < 64) :
    Memory.wf (Memory.write m i v) = true :=
  Memory.rising_write v h (Nat.zero_le _) hi

/-- Below the lower bound nothing is listed. -/
theorem Memory.read_eq_none_of_lt {m : Memory} {lo i : Nat} (h : Memory.rising lo m = true) (hi : i < lo) :
    Memory.read m i = none := by
  induction m generalizing lo with
  | nil => rfl
  | cons p m ih =>
    obtain ⟨a, b⟩ := p
    simp only [Memory.rising, Bool.and_eq_true, decide_eq_true_eq] at h
    rw [Memory.read, if_neg (by omega)]
    exact ih h.2 (by omega)

/-! ## Several bytes -/

/-- What is read after bytes have been stored from index `i` on. -/
theorem Memory.read_writeAll (m : Memory) (i : Nat) (vs : List Byte) (j : Nat) :
    Memory.read (Memory.writeAll m i vs) j =
      if i ≤ j ∧ j < i + vs.length then vs[j - i]? else Memory.read m j := by
  induction vs generalizing m i with
  | nil =>
    have : ¬ (i ≤ j ∧ j < i + ([] : List Byte).length) := by simp only [List.length_nil]; omega
    rw [if_neg this]; rfl
  | cons v vs ih =>
    rw [Memory.writeAll, ih, Memory.read_write]
    simp only [List.length_cons]
    by_cases hj : j = i
    · subst hj; simp
    · by_cases hr : i + 1 ≤ j ∧ j < i + 1 + vs.length
      · rw [if_pos hr, if_pos (by omega), show j - i = (j - (i + 1)) + 1 by omega]; simp
      · rw [if_neg hr, if_neg hj, if_neg (by omega)]

/-- Storing bytes inside the buffer keeps the canonical form. -/
theorem Memory.wf_writeAll {m : Memory} {i : Nat} {vs : List Byte} (h : Memory.wf m = true)
    (hi : i + vs.length ≤ 64) : Memory.wf (Memory.writeAll m i vs) = true := by
  induction vs generalizing m i with
  | nil => exact h
  | cons v vs ih =>
    simp only [List.length_cons] at hi
    exact ih (Memory.wf_write v h (by omega)) (by omega)

/-! ## Bytes of `BUF` in a state -/

/-- `BUF[j]` depends on the buffer's contents and the number of resets alone. -/
theorem State.byteAt_congr {s t : State} {j : Nat} (h : Memory.read s.buf j = Memory.read t.buf j)
    (hr : s.resets = t.resets) : s.byteAt j = t.byteAt j := by
  rw [State.byteAt, State.byteAt, h, hr]

/-- `BUF[j]` after bytes have been stored from index `i` on. -/
theorem State.byteAt_writeBytes (s : State) (i : Nat) (vs : List Byte) (j : Nat) :
    (s.writeBytes i vs).byteAt j =
      if i ≤ j ∧ j < i + vs.length then vs.getD (j - i) 0 else s.byteAt j := by
  rw [State.byteAt, State.writeBytes_buf, State.writeBytes_resets, Memory.read_writeAll]
  split_ifs with h
  · obtain ⟨h1, h2⟩ := h
    rw [List.getD_eq_getElem?_getD, List.getElem?_eq_getElem (by omega)]; rfl
  · rfl

/-- `BUF[j]` after a zero fill of the indices `lo .. hi - 1`. -/
theorem State.byteAt_zeroFill (s : State) (lo hi j : Nat) :
    (s.zeroFill lo hi).byteAt j = if lo ≤ j ∧ j < hi then 0 else s.byteAt j := by
  rw [State.zeroFill, State.byteAt_writeBytes, List.length_replicate]
  by_cases h : lo ≤ j ∧ j < hi
  · rw [if_pos h, if_pos (by omega), List.getD_eq_getElem?_getD,
      List.getElem?_replicate_of_lt (by omega)]
    rfl
  · rw [if_neg h, if_neg (by omega)]

@[simp] theorem splitBE_length (n v : Nat) : (splitBE n v).length = n := by simp [splitBE]

/-- Byte `j` of the big-endian image. -/
theorem splitBE_getD (n v j : Nat) (hj : j < n) :
    (splitBE n v).getD j 0 = BitVec.ofNat 8 (v >>> (8 * (n - 1 - j))) := by
  simp [splitBE, List.getD_eq_getElem?_getD, hj]

/-- `BUF[j]` after `MemWrite(i, n, v)`. -/
theorem State.byteAt_memWrite (s : State) (i n v j : Nat) :
    (s.memWrite i n v).byteAt j =
      if i ≤ j ∧ j < i + n then BitVec.ofNat 8 (v >>> (8 * (n - 1 - (j - i)))) else s.byteAt j := by
  rw [State.memWrite, State.byteAt_writeBytes, splitBE_length]
  split_ifs with h
  · rw [splitBE_getD _ _ _ (by omega)]
  · rfl

@[simp] theorem State.byteAt_setH (s : State) (v : Chain) (j : Nat) : (s.setH v).byteAt j = s.byteAt j := rfl
@[simp] theorem State.byteAt_setCnt (s : State) (v : BitVec 6) (j : Nat) :
    (s.setCnt v).byteAt j = s.byteAt j := rfl
@[simp] theorem State.byteAt_setLen (s : State) (v : BitVec 64) (j : Nat) :
    (s.setLen v).byteAt j = s.byteAt j := rfl
@[simp] theorem State.byteAt_setPhase (s : State) (v : Phase) (j : Nat) :
    (s.setPhase v).byteAt j = s.byteAt j := rfl
@[simp] theorem State.byteAt_setFault (s : State) (v : FaultCode) (j : Nat) :
    (s.setFault v).byteAt j = s.byteAt j := rfl
@[simp] theorem State.byteAt_setInputs (s : State) (v : List Input) (j : Nat) :
    (s.setInputs v).byteAt j = s.byteAt j := rfl
@[simp] theorem State.byteAt_compressBuf (s : State) (j : Nat) : s.compressBuf.byteAt j = s.byteAt j := by
  rw [State.compressBuf, State.byteAt_setH]

/-- The block of a state, byte by byte. -/
theorem State.block_eq (s : State) (B : Block) (h : ∀ i (hi : i < 64), s.byteAt i = B[i]) : s.block = B := by
  apply Vector.ext
  intro i hi
  rw [State.block, Vector.getElem_ofFn]
  exact h i hi

/-- Two states with the same 64 bytes have the same block. -/
theorem State.block_congr {s t : State} (h : ∀ i, i < 64 → s.byteAt i = t.byteAt i) : s.block = t.block :=
  State.block_eq s _ fun i hi => by rw [h i hi, State.block, Vector.getElem_ofFn]

end Sys2Proof.Machine
end

