-- ==== Sys2Proof/Laws/Compressor.lean ====
section
/-! SUPPORT. `Compress` unfolded, and the shape of the schedule and of the rounds: lengths, which words the
expansion leaves, and the rounds over a schedule cut in two. -/

namespace Sys2Proof.Machine

/-- Sixteen words are loaded from the block. -/
@[simp] theorem loadedWords_length (B : Block) : (loadedWords B).length = 16 := by simp [loadedWords]

/-- The loaded word at index `t`. -/
theorem loadedWords_getD (B : Block) {t : Nat} (ht : t < 16) :
    (loadedWords B).getD t 0 = wordBE B[4 * t] B[4 * t + 1] B[4 * t + 2] B[4 * t + 3] := by
  simp [loadedWords, List.getD_eq_getElem?_getD, ht]

/-- The expansion adds `k` words. -/
@[simp] theorem expandWords_length (k : Nat) (W : List Word) : (expandWords k W).length = W.length + k := by
  induction k generalizing W with
  | zero => rfl
  | succ k ih => rw [expandWords, ih, List.length_append, List.length_singleton]; omega

/-- The schedule has 80 words. -/
@[simp] theorem schedule_length (B : Block) : (schedule B).length = 80 := by
  rw [schedule, expandWords_length, loadedWords_length]; rfl

/-- The expansion leaves the words that are there. -/
theorem expandWords_getD_of_lt (k : Nat) (W : List Word) {t : Nat} (ht : t < W.length) :
    (expandWords k W).getD t 0 = W.getD t 0 := by
  induction k generalizing W with
  | zero => rfl
  | succ k ih =>
    rw [expandWords, ih _ (by rw [List.length_append]; omega), List.getD_append _ _ _ _ ht]

/-- The first word the expansion adds. -/
theorem expandWords_getD_length (k : Nat) (W : List Word) :
    (expandWords (k + 1) W).getD W.length 0 = nextWord W W.length := by
  rw [expandWords, expandWords_getD_of_lt _ _ (by simp), List.getD_append_right _ _ _ _ (Nat.le_refl _)]
  simp

/-- `Compress` unfolded: its definition is irreducible, so cite this lemma (Lean's own equation lemma for it does
not go through). -/
theorem compress_eq (S : Chain) (B : Block) :
    compress S B = feedForward S (roundsFrom 0 (schedule B) (initWork S)) := by
  unfold compress; rfl

/-- The rounds over a schedule cut in two. -/
theorem roundsFrom_append (t : Nat) (W W' : List Word) (v : Work) :
    roundsFrom t (W ++ W') v = roundsFrom (t + W.length) W' (roundsFrom t W v) := by
  induction W generalizing t v with
  | nil => rfl
  | cons w W ih =>
    rw [List.cons_append, roundsFrom, ih, roundsFrom, List.length_cons]
    congr 1; omega

end Sys2Proof.Machine
end

