-- ==== Sys2Proof/Laws/Framer.lean ====
section
/-! SUPPORT. What the shared operations of the framer and the four meanings can do, said once: the two tests,
the fields each effect leaves, and the inversion of `exec`. -/

namespace Sys2Proof.Machine

/-! ## The frozen test and the phase test -/

/-- An unfrozen instance takes the effect. -/
theorem ifLive_of_none {s : State} (h : s.fault = .none) (e : State → State) : ifLive e s = e s := by
  rw [ifLive, s.frozen_eq_false_iff.2 h]; rfl

/-- A frozen instance ignores the command. -/
theorem ifLive_of_frozen {s : State} (h : s.fault ≠ .none) (e : State → State) : ifLive e s = s := by
  rw [ifLive, s.frozen_eq_true_iff.2 h]; rfl

/-- In the accumulating phase the effect is taken. -/
theorem ifAccumulating_of_accumulating {s : State} (h : s.phase = .accumulating) (e : State → State) :
    ifAccumulating e s = e s := by
  rw [ifAccumulating, h]

/-- In the finalized phase `MISUSE` is raised. -/
theorem ifAccumulating_of_finalized {s : State} (h : s.phase = .finalized) (e : State → State) :
    ifAccumulating e s = raiseFault .misuse s := by
  rw [ifAccumulating, h]

/-! ## The fault entry -/

section
variable (x : FaultCode) (s : State)

@[simp] theorem raiseFault_h : (raiseFault x s).h = s.h := rfl
@[simp] theorem raiseFault_buf : (raiseFault x s).buf = s.buf := rfl
@[simp] theorem raiseFault_cnt : (raiseFault x s).cnt = s.cnt := rfl
@[simp] theorem raiseFault_len : (raiseFault x s).len = s.len := rfl
@[simp] theorem raiseFault_phase : (raiseFault x s).phase = s.phase := rfl
@[simp] theorem raiseFault_fault : (raiseFault x s).fault = x := rfl
@[simp] theorem raiseFault_inputs : (raiseFault x s).inputs = s.inputs := rfl
@[simp] theorem raiseFault_resets : (raiseFault x s).resets = s.resets := rfl
end

/-! ## The pieces of `ABSORB` and `FINAL`, field by field -/

section
variable (s : State) (b : Byte) (n : Nat)

@[simp] theorem storeMessageByte_h : (storeMessageByte b s).h = s.h := rfl
@[simp] theorem storeMessageByte_buf :
    (storeMessageByte b s).buf = Memory.write s.buf s.cnt.toNat b := rfl
@[simp] theorem storeMessageByte_cnt : (storeMessageByte b s).cnt = s.cnt := rfl
@[simp] theorem storeMessageByte_len : (storeMessageByte b s).len = s.len + 8 := rfl
@[simp] theorem storeMessageByte_phase : (storeMessageByte b s).phase = s.phase := rfl
@[simp] theorem storeMessageByte_fault : (storeMessageByte b s).fault = s.fault := rfl
@[simp] theorem storeMessageByte_inputs : (storeMessageByte b s).inputs = s.inputs := rfl
@[simp] theorem storeMessageByte_resets : (storeMessageByte b s).resets = s.resets := rfl

/-- `BUF` after the message byte has been stored at `CNT`. -/
theorem storeMessageByte_byteAt (j : Nat) :
    (storeMessageByte b s).byteAt j = if j = s.cnt.toNat then b else s.byteAt j := by
  rw [storeMessageByte, State.byteAt_setLen, State.byteAt_writeBytes]
  by_cases h : j = s.cnt.toNat
  · subst h; simp
  · rw [if_neg h, if_neg]; simp only [List.length_singleton]; omega

/-- Before the 64th byte only `CNT` advances. -/
theorem advanceCount_of_ne {s : State} (h : s.cnt ≠ 63) : advanceCount s = s.setCnt (s.cnt + 1) :=
  if_neg h

/-- The 64th byte compresses the block. -/
theorem advanceCount_of_eq {s : State} (h : s.cnt = 63) : advanceCount s = s.compressBuf.setCnt 0 :=
  if_pos h

/-- What compressing and a new `CNT` leave, the block boundary test leaves. -/
theorem advanceCount_keeps {α : Type} (g : State → α) (hs : ∀ s v, g (State.setCnt s v) = g s)
    (hc : ∀ s, g (State.compressBuf s) = g s) (s : State) : g (advanceCount s) = g s := by
  by_cases h : s.cnt = 63
  · rw [advanceCount_of_eq h, hs, hc]
  · rw [advanceCount_of_ne h, hs]

@[simp] theorem advanceCount_buf : (advanceCount s).buf = s.buf :=
  advanceCount_keeps State.buf State.setCnt_buf State.compressBuf_buf s
@[simp] theorem advanceCount_len : (advanceCount s).len = s.len :=
  advanceCount_keeps State.len State.setCnt_len State.compressBuf_len s
@[simp] theorem advanceCount_phase : (advanceCount s).phase = s.phase :=
  advanceCount_keeps State.phase State.setCnt_phase State.compressBuf_phase s
@[simp] theorem advanceCount_fault : (advanceCount s).fault = s.fault :=
  advanceCount_keeps State.fault State.setCnt_fault State.compressBuf_fault s
@[simp] theorem advanceCount_inputs : (advanceCount s).inputs = s.inputs :=
  advanceCount_keeps State.inputs State.setCnt_inputs State.compressBuf_inputs s
@[simp] theorem advanceCount_resets : (advanceCount s).resets = s.resets :=
  advanceCount_keeps State.resets State.setCnt_resets State.compressBuf_resets s
@[simp] theorem advanceCount_byteAt (j : Nat) : (advanceCount s).byteAt j = s.byteAt j :=
  State.byteAt_congr (by simp) (by simp)

/-- What storing bytes and compressing leave, the padding leaves. -/
theorem padToLength_keeps {α : Type} (g : State → α) (hw : ∀ s i vs, g (State.writeBytes s i vs) = g s)
    (hc : ∀ s, g (State.compressBuf s) = g s) (n : Nat) (s : State) : g (padToLength n s) = g s := by
  by_cases hn : n ≤ padLimit
  · rw [padToLength, if_pos hn, State.zeroFill, hw, hw]
  · rw [padToLength, if_neg hn, State.zeroFill, hw, hc, State.zeroFill, hw, hw]

@[simp] theorem padToLength_cnt : (padToLength n s).cnt = s.cnt :=
  padToLength_keeps State.cnt State.writeBytes_cnt State.compressBuf_cnt n s
@[simp] theorem padToLength_len : (padToLength n s).len = s.len :=
  padToLength_keeps State.len State.writeBytes_len State.compressBuf_len n s
@[simp] theorem padToLength_phase : (padToLength n s).phase = s.phase :=
  padToLength_keeps State.phase State.writeBytes_phase State.compressBuf_phase n s
@[simp] theorem padToLength_fault : (padToLength n s).fault = s.fault :=
  padToLength_keeps State.fault State.writeBytes_fault State.compressBuf_fault n s
@[simp] theorem padToLength_inputs : (padToLength n s).inputs = s.inputs :=
  padToLength_keeps State.inputs State.writeBytes_inputs State.compressBuf_inputs n s
@[simp] theorem padToLength_resets : (padToLength n s).resets = s.resets :=
  padToLength_keeps State.resets State.writeBytes_resets State.compressBuf_resets n s

@[simp] theorem finalEffect_cnt : (finalEffect s).cnt = 0 := by simp [finalEffect]
@[simp] theorem finalEffect_len : (finalEffect s).len = s.len := by simp [finalEffect]
@[simp] theorem finalEffect_phase : (finalEffect s).phase = .finalized := by simp [finalEffect]
@[simp] theorem finalEffect_fault : (finalEffect s).fault = s.fault := by simp [finalEffect]
@[simp] theorem finalEffect_inputs : (finalEffect s).inputs = s.inputs := by simp [finalEffect]
@[simp] theorem finalEffect_resets : (finalEffect s).resets = s.resets := by simp [finalEffect]

@[simp] theorem initEffect_h : (initEffect s).h = iv := rfl
@[simp] theorem initEffect_buf : (initEffect s).buf = s.buf := rfl
@[simp] theorem initEffect_cnt : (initEffect s).cnt = 0 := rfl
@[simp] theorem initEffect_len : (initEffect s).len = 0 := rfl
@[simp] theorem initEffect_phase : (initEffect s).phase = .accumulating := rfl
@[simp] theorem initEffect_fault : (initEffect s).fault = s.fault := rfl
@[simp] theorem initEffect_inputs : (initEffect s).inputs = s.inputs := rfl
@[simp] theorem initEffect_resets : (initEffect s).resets = s.resets := rfl
end

/-! ## The padding, byte by byte -/

/-- `BUF` after the padding when one frame suffices. -/
theorem padToLength_byteAt_one {s : State} {n : Nat} (h0 : 1 ≤ n) (hn : n ≤ 56) (j : Nat) :
    (padToLength n s).byteAt j =
      if j = n - 1 then terminator else if n ≤ j ∧ j < 56 then 0 else s.byteAt j := by
  rw [padToLength, if_pos (show n ≤ padLimit from hn), State.byteAt_zeroFill, State.byteAt_writeBytes,
    List.length_singleton, padLimit]
  by_cases h1 : j = n - 1
  · subst h1; rw [if_neg (by omega), if_pos (by omega), if_pos rfl, Nat.sub_self]; rfl
  · rw [if_neg h1, if_neg (c := n - 1 ≤ j ∧ j < n - 1 + 1) (by omega)]

/-- The intermediate frame, when two are needed, byte by byte. -/
theorem intermediateFrame_byteAt (s : State) {n : Nat} (h0 : 1 ≤ n) (j : Nat) :
    ((s.writeBytes (n - 1) [terminator]).zeroFill n blockBytes).byteAt j =
      if j = n - 1 then terminator else if n ≤ j ∧ j < 64 then 0 else s.byteAt j := by
  simp only [blockBytes, State.byteAt_zeroFill, State.byteAt_writeBytes, List.length_singleton]
  by_cases h1 : j = n - 1
  · subst h1; rw [if_neg (by omega), if_pos (by omega), if_pos rfl, Nat.sub_self]; rfl
  · rw [if_neg h1, if_neg (c := n - 1 ≤ j ∧ j < n - 1 + 1) (by omega)]

/-- `H` after the padding: unchanged with one frame, one compression with two. -/
theorem padToLength_h (n : Nat) (s : State) :
    (padToLength n s).h = if n ≤ 56 then s.h
      else compress s.h ((s.writeBytes (n - 1) [terminator]).zeroFill n blockBytes).block := by
  by_cases hn : n ≤ 56
  · rw [if_pos hn, padToLength, if_pos (show n ≤ padLimit from hn)]; simp
  · rw [if_neg hn, padToLength, if_neg (show ¬ n ≤ padLimit from hn)]; simp

/-- `BUF` after the padding when two frames are needed. -/
theorem padToLength_byteAt_two {s : State} {n : Nat} (hn : 56 < n) (j : Nat) :
    (padToLength n s).byteAt j =
      if j < 56 then 0 else if j = n - 1 then terminator else if n ≤ j ∧ j < 64 then 0
      else s.byteAt j := by
  rw [padToLength, if_neg (show ¬ n ≤ padLimit from Nat.not_le.2 hn), State.byteAt_zeroFill,
    State.byteAt_compressBuf, intermediateFrame_byteAt s (by omega), padLimit]
  by_cases h : j < 56
  · rw [if_pos (by omega), if_pos h]
  · rw [if_neg (by omega), if_neg h]

/-- Byte `i` of `BUF` after `FINAL`: the last frame. -/
theorem finalEffect_byteAt (s : State) (j : Nat) :
    (finalEffect s).byteAt j =
      if 56 ≤ j ∧ j < 64 then BitVec.ofNat 8 (s.len.toNat >>> (8 * (63 - j)))
      else (padToLength (s.cnt.toNat + 1) s).byteAt j := by
  simp only [finalEffect, padLimit, State.byteAt_setPhase, State.byteAt_setCnt,
    State.byteAt_compressBuf, State.byteAt_memWrite, padToLength_len]
  by_cases h : 56 ≤ j ∧ j < 64
  · rw [if_pos h, if_pos (by omega), show 8 - 1 - (j - 56) = 63 - j by omega]
  · rw [if_neg h, if_neg (by omega)]

/-- `H` after `FINAL`: one more compression than the padding, of the frame that stays in `BUF`. -/
theorem finalEffect_h (s : State) :
    (finalEffect s).h = compress (padToLength (s.cnt.toNat + 1) s).h (finalEffect s).block := by
  have h : (finalEffect s).block =
      ((padToLength (s.cnt.toNat + 1) s).memWrite padLimit 8 s.len.toNat).block :=
    State.block_congr fun i _ => by
      simp only [finalEffect, State.byteAt_setPhase, State.byteAt_setCnt, State.byteAt_compressBuf,
        padToLength_len]
  rw [h]; simp [finalEffect]

/-! ## The canonical form of the buffer -/

/-- Storing bytes inside the buffer keeps the canonical form. -/
theorem State.writeBytes_wf {s : State} {i : Nat} {vs : List Byte} (h : Memory.wf s.buf = true)
    (hi : i + vs.length ≤ 64) : Memory.wf (s.writeBytes i vs).buf = true :=
  Memory.wf_writeAll h hi

/-- A zero fill inside the buffer keeps the canonical form. -/
theorem State.zeroFill_wf {s : State} {lo hi : Nat} (h : Memory.wf s.buf = true) (hl : lo ≤ hi)
    (hh : hi ≤ 64) : Memory.wf (s.zeroFill lo hi).buf = true :=
  State.writeBytes_wf h (by rw [List.length_replicate]; omega)

/-- The padding keeps the canonical form. -/
theorem padToLength_wf {s : State} {n : Nat} (h : Memory.wf s.buf = true) (h0 : 1 ≤ n) (hn : n ≤ 64) :
    Memory.wf (padToLength n s).buf = true := by
  have w : Memory.wf (s.writeBytes (n - 1) [terminator]).buf = true :=
    State.writeBytes_wf h (by rw [List.length_singleton]; omega)
  by_cases hp : n ≤ padLimit
  · rw [padToLength, if_pos hp]
    exact State.zeroFill_wf w hp (by decide)
  · rw [padToLength, if_neg hp]
    refine State.zeroFill_wf ?_ (by decide) (by decide)
    rw [State.compressBuf_buf]
    exact State.zeroFill_wf w hn (by decide)

/-- `FINAL` keeps the canonical form. -/
theorem finalEffect_wf {s : State} (h : Memory.wf s.buf = true) : Memory.wf (finalEffect s).buf = true := by
  have hc := s.cnt.isLt
  simp only [finalEffect, State.setPhase_buf, State.setCnt_buf, State.compressBuf_buf]
  exact Memory.wf_writeAll (padToLength_wf h (by omega) (by omega)) (by simp [padLimit])

/-! ## The input to come does not matter -/

section
variable (s : State) (v : List Input)

theorem State.setH_setInputs (x : Chain) : (s.setInputs v).setH x = (s.setH x).setInputs v := rfl
theorem State.setCnt_setInputs (x : BitVec 6) : (s.setInputs v).setCnt x = (s.setCnt x).setInputs v := rfl
theorem State.setPhase_setInputs (x : Phase) : (s.setInputs v).setPhase x = (s.setPhase x).setInputs v := rfl
theorem State.writeBytes_setInputs (i : Nat) (vs : List Byte) :
    (s.setInputs v).writeBytes i vs = (s.writeBytes i vs).setInputs v := rfl

/-- The block does not depend on the input to come. -/
theorem State.block_setInputs : (s.setInputs v).block = s.block := State.block_congr fun _ _ => rfl

/-- Compressing does not depend on the input to come. -/
theorem State.compressBuf_setInputs : (s.setInputs v).compressBuf = s.compressBuf.setInputs v := by
  rw [State.compressBuf, State.compressBuf, State.block_setInputs, State.setInputs_h, State.setH_setInputs]

/-- The padding does not depend on the input to come. -/
theorem padToLength_setInputs (n : Nat) : padToLength n (s.setInputs v) = (padToLength n s).setInputs v := by
  by_cases hn : n ≤ padLimit
  · rw [padToLength, padToLength, if_pos hn, if_pos hn]
    simp only [State.zeroFill, State.writeBytes_setInputs]
  · rw [padToLength, padToLength, if_neg hn, if_neg hn]
    simp only [State.zeroFill, State.writeBytes_setInputs, State.compressBuf_setInputs]

/-- `FINAL` does not depend on the input to come. -/
theorem finalEffect_setInputs : finalEffect (s.setInputs v) = (finalEffect s).setInputs v := by
  simp only [finalEffect, State.setInputs_cnt, padToLength_setInputs, State.memWrite, State.setInputs_len,
    State.writeBytes_setInputs, State.compressBuf_setInputs, State.setCnt_setInputs, State.setPhase_setInputs]
end

/-! ## What `exec` can do -/

/-- Everything a command can do: ignored by a frozen instance; a fault, which writes `FAULT` alone; or the
effect of the command, on an unfrozen instance in the phase that allows it. -/
theorem exec_cases {i : Instr} {s t : State} (h : exec i s = .next t) :
    (s.fault ≠ .none ∧ t = s) ∨
    (s.fault = .none ∧
      ((i = .init ∧ t = initEffect s) ∨
       (i ≠ .init ∧ s.phase = .finalized ∧ t = raiseFault .misuse s) ∨
       (s.phase = .accumulating ∧
         ((i = .upd0 ∧ t = s) ∨ (i = .final ∧ t = finalEffect s) ∨
          ∃ b, i = .absorb b ∧
            ((s.len = lenMax ∧ t = raiseFault .lenOvf s) ∨
             (s.len ≠ lenMax ∧ t = advanceCount (storeMessageByte b s))))))) := by
  by_cases hf : s.fault = .none
  · refine .inr ⟨hf, ?_⟩
    cases hp : s.phase <;> cases i <;>
      simp only [exec, execInit, execUpd0, execAbsorb, execFinal, ifLive_of_none hf,
        ifAccumulating_of_accumulating, ifAccumulating_of_finalized, hp, upd0Effect,
        Host.Outcome.next.injEq] at h <;> subst h <;> simp
    unfold absorbEffect; split_ifs with hl <;> simp [hl]
  · refine .inl ⟨hf, ?_⟩
    cases i <;> simp only [exec, execInit, execUpd0, execAbsorb, execFinal, ifLive_of_frozen hf,
      Host.Outcome.next.injEq] at h <;> exact h.symm

end Sys2Proof.Machine
end

