-- ==== Sys2Proof/Laws/PerInstr.lean ====
section
/-! SUPPORT. Statements made of every instruction, one lemma per constructor (LAWS.json). -/

namespace Sys2Proof.Laws

/-- The word a command is encoded as passes both well-formedness checks (spec/30_encoding.md R45, R49). -/
def EncodedWordIsWellFormed.Statement (i : Instr) : Prop := CmdWord.wf (encode i) = true

theorem EncodedWordIsWellFormed.init : EncodedWordIsWellFormed.Statement .init :=
  show CmdWord.wf _ = true from by decide

theorem EncodedWordIsWellFormed.upd0 : EncodedWordIsWellFormed.Statement .upd0 :=
  show CmdWord.wf _ = true from by decide

theorem EncodedWordIsWellFormed.absorb (b : Byte) : EncodedWordIsWellFormed.Statement (.absorb b) := by
  have h : (encode (.absorb b)).toNat = 768 + b.toNat := by
    rw [encode, joinFields, BitVec.toNat_append, ← Nat.shiftLeft_add_eq_or_of_lt b.isLt]; rfl
  have hb := b.isLt
  simp only [EncodedWordIsWellFormed.Statement, CmdWord.wf, CmdWord.opAssigned, CmdWord.dataAllowed, h,
    Bool.and_eq_true, Bool.or_eq_true, decide_eq_true_eq, beq_iff_eq]
  omega

theorem EncodedWordIsWellFormed.final : EncodedWordIsWellFormed.Statement .final :=
  show CmdWord.wf _ = true from by decide

end Sys2Proof.Laws
end

