-- ==== Sys2Proof/Laws/Step.lean ====
section
/-! SUPPORT. What one step and several steps can do, said once. -/

namespace Sys2Proof.Machine

/-- Everything a step can do: no input is there and the state stays; a reset is taken; or a command word is taken,
which is illegal or is a command that `exec` runs. -/
theorem step_cases {s t : State} (h : step s = .next t) :
    (s.inputs = [] ∧ t = s) ∨
    (∃ rest, s.inputs = .reset :: rest ∧ t = applyReset (s.setInputs rest)) ∨
    ∃ c rest, s.inputs = .cmd c :: rest ∧
      ((∃ why, decode c = .illegal why ∧ t = illegalWord (s.setInputs rest)) ∨
       ∃ i, decode c = .command i ∧ exec i (s.setInputs rest) = .next t) := by
  rw [step, advance] at h
  rcases hi : s.inputs with - | ⟨e, rest⟩
  · rw [hi] at h; exact .inl ⟨rfl, (Host.Outcome.next.inj h).symm⟩
  · rw [hi] at h
    cases e with
    | reset => exact .inr (.inl ⟨rest, rfl, (Host.Outcome.next.inj h).symm⟩)
    | cmd c =>
      refine .inr (.inr ⟨c, rest, rfl, ?_⟩)
      simp only [applyInput, deliver] at h
      cases hd : decode c with
      | command i => rw [hd] at h; exact .inr ⟨i, rfl, h⟩
      | illegal why => rw [hd] at h; exact .inl ⟨why, rfl, (Host.Outcome.next.inj h).symm⟩

/-- A command never changes the input that is still to come. -/
theorem exec_inputs {i : Instr} {s t : State} (h : exec i s = .next t) : t.inputs = s.inputs := by
  rcases exec_cases h with ⟨-, rfl⟩ | ⟨-, ⟨-, rfl⟩ | ⟨-, -, rfl⟩ |
    ⟨-, ⟨-, rfl⟩ | ⟨-, rfl⟩ | ⟨b, -, ⟨-, rfl⟩ | ⟨-, rfl⟩⟩⟩⟩ <;> simp

/-- One step, then `n` more. -/
theorem steps_succ {s t : State} (h : step s = .next t) (n : Nat) : steps (n + 1) s = steps n t := by
  rw [steps, h]

/-- `m` steps, then `n` more. -/
theorem steps_add {s t : State} {m : Nat} (h : steps m s = .next t) (n : Nat) :
    steps (m + n) s = steps n t := by
  induction m generalizing s with
  | zero => rw [steps] at h; rw [Nat.zero_add, Host.Outcome.next.inj h]
  | succ m ih =>
    rw [show m + 1 + n = (m + n) + 1 by omega, steps]
    rw [steps] at h
    cases hs : step s with
    | next u => rw [hs] at h; exact ih h
    | fault r => exact nomatch r
    | refused r => rw [hs] at h; exact nomatch h

/-- The inputs of a list of commands, one after another. -/
@[simp] theorem commandInputs_cons (i : Instr) (is : List Instr) :
    commandInputs (i :: is) = .cmd (encode i) :: commandInputs is := rfl

/-- The inputs of two lists of commands. -/
@[simp] theorem commandInputs_append (is js : List Instr) :
    commandInputs (is ++ js) = commandInputs is ++ commandInputs js := List.map_append

/-- No command, no input. -/
@[simp] theorem commandInputs_nil : commandInputs [] = [] := rfl

end Sys2Proof.Machine
end

