-- ==== Sys2Proof/Tests/Slice0.lean ====
section
/-! SUPPORT. Tests, each about one decoding, one computation or one step, expected values taken from the spec's
own tables (spec/95_test_vectors.md) or counted out by hand from its encodings; and a witness for the hypotheses
of every statement of Certificates/Slice0/Obligations.lean. -/

namespace Sys2Proof.Machine.Tests

/-- A small state: reset but for the fields given. -/
def st (phase : Phase) (fault : FaultCode) (cnt : BitVec 6) (len : BitVec 64) (inputs : List Input) : State :=
  { State.reset with phase := phase, fault := fault, cnt := cnt, len := len, inputs := inputs }

/-- A buffer holding the given bytes from index 0 on. -/
def bufOf (bytes : List Byte) : Memory := bytes.zipIdx.map fun p => (p.2, p.1)

/-- The next state of an outcome, or the reset state. -/
def nextOf (o : Host.Outcome State Fault Refusal) : State :=
  match o with
  | .next t => t
  | _ => State.reset

/-! ## Well-formedness: one ill-formed word for each check -/

/-- `0x0500`: the operation code is not assigned (R49). -/
theorem test_wf_refuses_unassigned_op :
    CmdWord.opAssigned 0x0500 = false ∧ CmdWord.wf 0x0500 = false := by decide

/-- `0x0101`: `INIT` with data (R49). -/
theorem test_wf_refuses_data :
    CmdWord.dataAllowed 0x0101 = false ∧ CmdWord.wf 0x0101 = false := by decide

/-! ## Decoding: every constructor, its word written out bit by bit from R48 -/

theorem test_decode_init : decode 0b0000000100000000 = .command .init := by decide
theorem test_decode_upd0 : decode 0b0000001000000000 = .command .upd0 := by decide
theorem test_decode_absorb : decode 0b0000001110100101 = .command (.absorb 0b10100101) := by decide
theorem test_decode_final : decode 0b0000010000000000 = .command .final := by decide

/-- Words that differ from a command in one bit (R49). -/
theorem test_decode_illegal :
    decode 0b0000000100000001 = .illegal .nonzeroData ∧ decode 0b1000001100000000 = .illegal .unassignedOp := by
  decide

/-- The host's numbering of an `ABSORB 0x61` word, and of a word longer than a command. -/
theorem test_decodeTableWord :
    decodeTableWord 16 0x0361 = some (.absorb 0x61) ∧ decodeTableWord 32 0x10361 = none := by decide

/-! ## Primitives (spec/95_test_vectors.md section 2.1) -/

theorem test_rotl32 : rotl32 0x67452301 5 = 0xE8A4602C ∧ rotl32 0xC0000000 30 = 0x30000000 := by decide

/-- The whole truth table of the nonlinear functions. -/
theorem test_roundF : [0, 20, 40, 60].map (fun t => roundF t 0xAAAAAAAA 0xCCCCCCCC 0xF0F0F0F0) =
    [0xD8D8D8D8, 0x96969696, 0xE8E8E8E8, 0x96969696] := by decide

theorem test_Kt : [0, 19, 20, 39, 40, 59, 60, 79].map Kt = [0x5A827999, 0x5A827999, 0x6ED9EBA1, 0x6ED9EBA1,
    0x8F1BBCDC, 0x8F1BBCDC, 0xCA62C1D6, 0xCA62C1D6] := by decide

/-! ## The compressor (spec/95_test_vectors.md section 2.4) -/

/-- K5: the bytes `00 01 … 3F`. -/
theorem test_compress_counting : compress iv (Vector.ofFn fun i => BitVec.ofNat 8 i.val) =
    ⟨0xB9AC757B, 0xBC297925, 0x2E227274, 0x06872F94, 0xCBEA56A1⟩ := by decide +kernel

/-- K9: all ones, every addition wraps. -/
theorem test_compress_ones : compress ⟨0xFFFFFFFF, 0xFFFFFFFF, 0xFFFFFFFF, 0xFFFFFFFF, 0xFFFFFFFF⟩
    (Vector.ofFn fun _ => 0xFF) =
    ⟨0x3F48159B, 0x2DCE51FA, 0x8A1E930A, 0x02083B68, 0xEF70D6E8⟩ := by decide +kernel

/-! ## The commands (spec/95_test_vectors.md section 3.2 and the source's own digests, section 1) -/

/-- T5: `INIT` from the finalized phase gives the reset state, but for `BUF`. -/
theorem test_init : (exec .init (st .finalized .none 0 24 [])) = .next State.reset := by rfl

/-- T15: a frozen instance ignores `INIT`. -/
theorem test_init_frozen :
    step (st .accumulating .illegal 1 8 [.cmd 0x0100]) = .next (st .accumulating .illegal 1 8 []) := by rfl

/-- T4 and T6. -/
theorem test_upd0 : exec .upd0 (st .accumulating .none 5 40 []) = .next (st .accumulating .none 5 40 []) ∧
    exec .upd0 (st .finalized .none 0 24 []) = .next (st .finalized .misuse 0 24 []) := ⟨rfl, rfl⟩

/-- T6: `STATUS` and `DIGEST` after the fault. -/
theorem test_upd0_status : (nextOf (exec .upd0 (st .finalized .none 0 24 []))).status = 0x03 ∧
    (nextOf (exec .upd0 (st .finalized .none 0 24 []))).digest = none := by decide

/-- T1, and T9, T12: the two faults in their order. -/
theorem test_absorb : exec (.absorb 0x61) State.reset =
      .next { st .accumulating .none 1 8 [] with buf := [(0, 0x61)] } ∧
    exec (.absorb 0x00) (st .accumulating .none 63 0xFFFFFFFFFFFFFFF8 []) =
      .next (st .accumulating .lenOvf 63 0xFFFFFFFFFFFFFFF8 []) ∧
    exec (.absorb 0x00) (st .finalized .none 0 0xFFFFFFFFFFFFFFF8 []) =
      .next (st .finalized .misuse 0 0xFFFFFFFFFFFFFFF8 []) := ⟨rfl, rfl, rfl⟩

/-- T3: the 64th byte compresses the block (K6). -/
theorem test_absorb_boundary :
    let t := nextOf (exec (.absorb 0x61)
      { st .accumulating .none 63 504 [] with buf := bufOf (List.replicate 63 0x61) })
    t.cnt = 0 ∧ t.len = 512 ∧ t.h = ⟨0xDA4968EB, 0x2E377C1F, 0x884E8F52, 0x83524BEB, 0xE74EBDBD⟩ := by
  decide +kernel

/-- P2: the message `61 62 63`, one frame. -/
theorem test_final_one_frame :
    let t := nextOf (exec .final { st .accumulating .none 3 24 [] with buf := bufOf [0x61, 0x62, 0x63] })
    t.status = 0x09 ∧ t.digest = some [0xA9, 0x99, 0x3E, 0x36, 0x47, 0x06, 0x81, 0x6A, 0xBA, 0x3E,
      0x25, 0x71, 0x78, 0x50, 0xC2, 0x6C, 0x9C, 0xD0, 0xD8, 0x9D] := by decide +kernel

/-- S4 (the source's own digest), P5: sixty pending bytes, two frames. -/
theorem test_final_two_frames :
    let letters := (List.range 26).map fun i => BitVec.ofNat 8 (0x61 + i)
    let t := nextOf (exec .final { st .accumulating .none 60 480 [] with
      buf := bufOf (letters ++ letters ++ List.replicate 8 0x3D) })
    t.status = 0x09 ∧ t.digest = some [0x78, 0x22, 0xAD, 0x26, 0xC3, 0x07, 0x99, 0x54, 0x7B, 0xCB,
      0x3D, 0x14, 0x9E, 0xC9, 0x8E, 0xA5, 0x37, 0xEB, 0x57, 0x61] := by decide +kernel

/-- T13 and T14: an illegal word in either phase. -/
theorem test_illegal :
    step (st .accumulating .none 1 8 [.cmd 0x0000]) = .next (st .accumulating .illegal 1 8 []) ∧
    step (st .finalized .none 0 8 [.cmd 0x0401]) = .next (st .finalized .illegal 0 8 []) := ⟨rfl, rfl⟩

/-- T17: reset of a frozen instance; what the host issues after it is still to come. -/
theorem test_reset : step (st .accumulating .lenOvf 63 504 [.reset, .cmd 0x0200]) =
    .next { State.reset with inputs := [.cmd 0x0200], resets := 1 } := by rfl

/-- Section 1: the empty message by the whole-message function, S1. -/
theorem test_hash_empty : hashMsg [] = [0xDA, 0x39, 0xA3, 0xEE, 0x5E, 0x6B, 0x4B, 0x0D, 0x32, 0x55,
    0xBF, 0xEF, 0x95, 0x60, 0x18, 0x90, 0xAF, 0xD8, 0x07, 0x09] := by decide +kernel

/-- P2's encoding: `hash` of three bytes as command words. -/
theorem test_pseudo_hash : programWords [.hash [0x61, 0x62, 0x63]] =
    [0x0100, 0x0200, 0x0361, 0x0362, 0x0363, 0x0400] := by decide

/-! ## Witnesses: the hypotheses of the statements can be met, clause by clause at the edges of their ranges -/

theorem witness_IllegalWordsRaiseIllegal : ∃ (s : State) (c : CmdWord) (rest : List Input) (why : IllegalWord),
    s.fault = .none ∧ s.inputs = .cmd c :: rest ∧ decode c = .illegal why :=
  ⟨st .accumulating .none 0 0 [.cmd 0x04FF], 0x04FF, [], .nonzeroData, by decide⟩

theorem witness_DecodeEncodeRoundTrip : decode 0x03FF = .command (.absorb 0xFF) := by decide

theorem witness_StepRunsDecodedCommand : ∃ (s : State) (c : CmdWord) (rest : List Input) (i : Instr),
    s.inputs = .cmd c :: rest ∧ decode c = .command i :=
  ⟨st .finalized .misuse 0 0 [.cmd 0x0300, .reset], 0x0300, [.reset], .absorb 0, by decide⟩

theorem witness_StepFollowsCommandWord :
    (∃ (s : State) (c : CmdWord) (rest : List Input), s.inputs = Input.cmd c :: rest ∧ s.fault ≠ FaultCode.none) ∧
    (∃ (s : State) (c : CmdWord) (rest : List Input) (why : IllegalWord),
      s.inputs = Input.cmd c :: rest ∧ s.fault = FaultCode.none ∧ decode c = .illegal why) ∧
    ∃ (s : State) (c : CmdWord) (rest : List Input) (i : Instr),
      s.inputs = Input.cmd c :: rest ∧ s.fault = FaultCode.none ∧ decode c = .command i :=
  ⟨⟨st .finalized .misuse 0 0 [.cmd 0], 0, [], by decide⟩,
   ⟨st .finalized .none 0 0 [.cmd 0xFFFF], 0xFFFF, [], .unassignedOp, by decide⟩,
   ⟨st .finalized .none 0 0 [.cmd 0x0400], 0x0400, [], .final, by decide⟩⟩

theorem witness_IdleInstanceHoldsState : State.reset.inputs = [] := rfl

theorem witness_InputsTakenInOrder : ∃ s t : State, step s = .next t ∧ s.inputs = [.cmd 0x0200, .reset] :=
  ⟨st .accumulating .none 1 8 [.cmd 0x0200, .reset], _, rfl, rfl⟩

theorem witness_FrozenUntilReset :
    (∃ (s : State) (c : CmdWord) (rest : List Input), s.fault ≠ FaultCode.none ∧ s.inputs = Input.cmd c :: rest) ∧
    (∃ s t : State, s.fault ≠ FaultCode.none ∧ step s = .next t ∧ s.inputs = []) ∧
    ∃ (s t : State) (rest : List Input),
      s.fault ≠ FaultCode.none ∧ step s = .next t ∧ s.inputs = Input.reset :: rest :=
  ⟨⟨st .finalized .misuse 0 0 [.cmd 0xFFFF], 0xFFFF, [], by decide⟩,
   ⟨st .finalized .misuse 0 0 [], _, by decide, rfl, rfl⟩,
   ⟨st .accumulating .lenOvf 0 0 [.reset], _, [], by decide, rfl, rfl⟩⟩

/-- One state for each clause, in the clauses' order; the fault tests meet at `LEN = 2^64 - 8`. -/
theorem witness_FaultTestsInOrder :
    (∃ t : State, step (st .finalized .misuse 0 0 [.cmd 0]) = .next t) ∧
    (∃ t : State, step (st .finalized .none 0 0 [.cmd 0]) = .next t ∧ decode 0 = .illegal .unassignedOp) ∧
    (∃ t : State, step (st .finalized .none 0 0 [.cmd 0x0100]) = .next t) ∧
    (∃ t : State, step (st .finalized .none 0 0xFFFFFFFFFFFFFFF8 [.cmd 0x03FF]) = .next t ∧
      decode 0x03FF = .command (.absorb 0xFF)) ∧
    (∃ t : State, step (st .accumulating .none 63 0xFFFFFFFFFFFFFFF8 [.cmd 0x0300]) = .next t) ∧
    (∃ t : State, step (st .accumulating .none 62 0xFFFFFFFFFFFFFFF0 [.cmd 0x0300]) = .next t) ∧
    (∃ t : State, step (st .accumulating .none 63 0xFFFFFFFFFFFFFFF8 [.cmd 0x0400]) = .next t ∧
      decode 0x0400 = .command .final) :=
  ⟨⟨_, rfl⟩, ⟨_, rfl, by decide⟩, ⟨_, rfl⟩, ⟨_, rfl, by decide⟩, ⟨_, rfl⟩, ⟨_, rfl⟩, ⟨_, rfl, by decide⟩⟩

theorem witness_FaultEntryWritesOnlyFault : ∃ s t : State,
    s.fault = .none ∧ step s = .next t ∧ t.fault ≠ .none :=
  ⟨st .finalized .none 0 0 [.cmd 0x0200], _, rfl, rfl, by decide⟩

/-- One state for each row of the phase table. -/
theorem witness_PhaseMachine :
    (∃ t : State, step (st .finalized .none 0 0 [.cmd 0x0100]) = .next t) ∧
    (∃ t : State, step (st .accumulating .none 0 0 [.cmd 0x0200]) = .next t) ∧
    (∃ t : State, step (st .finalized .none 0 0 [.cmd 0x0200]) = .next t) ∧
    (∃ t : State, step (st .accumulating .none 62 0xFFFFFFFFFFFFFFF0 [.cmd 0x0300]) = .next t) ∧
    (∃ t : State, step (st .accumulating .none 63 0xFFFFFFFFFFFFFFF8 [.cmd 0x0300]) = .next t) ∧
    (∃ t : State, step (st .finalized .none 0 0 [.cmd 0x0300]) = .next t) ∧
    (∃ t : State, step (st .accumulating .none 0 0 [.cmd 0x0400]) = .next t) ∧
    (∃ t : State, step (st .finalized .none 0 0 [.cmd 0x0400]) = .next t) ∧
    (∃ t : State, step (st .finalized .none 0 0 [.cmd 0x0500]) = .next t) :=
  ⟨⟨_, rfl⟩, ⟨_, rfl⟩, ⟨_, rfl⟩, ⟨_, rfl⟩, ⟨_, rfl⟩, ⟨_, rfl⟩, ⟨_, rfl⟩, ⟨_, rfl⟩, ⟨_, rfl⟩⟩

theorem witness_ResetEventResetsLiveState :
    (∃ (s : State) (rest : List Input), s.inputs = Input.reset :: rest) ∧
    ∃ s t : State, s.fault ≠ FaultCode.none ∧ step s = .next t ∧ t.fault = FaultCode.none :=
  ⟨⟨st .finalized .misuse 0 0 [.reset], [], rfl⟩, ⟨st .finalized .misuse 0 0 [.reset], _, by decide, rfl, rfl⟩⟩

/-- Unfrozen and frozen, each clause of `InitCommand` and `ResetAgainstInit`. -/
theorem witness_InitCommand : (st .finalized .none 0 8 []).fault = .none ∧
    (st .finalized .misuse 0 8 []).fault ≠ .none := by decide

theorem witness_Upd0Command : (st .accumulating .none 0 0 []).fault = .none ∧
    (st .accumulating .none 0 0 []).phase = .accumulating ∧
    (st .finalized .none 0 0 []).fault = .none ∧ (st .finalized .none 0 0 []).phase = .finalized := by decide

/-- The clauses of `AbsorbCommand` and `LongestMessage`: finalized, at the longest length, one byte below it
(not the last of a block), and at a block boundary. -/
theorem witness_AbsorbCommand :
    (∃ s : State, s.fault = FaultCode.none ∧ s.phase = .finalized) ∧
    (∃ s : State, s.fault = FaultCode.none ∧ s.phase = .accumulating ∧ s.len = 0xFFFFFFFFFFFFFFF8) ∧
    (∃ s : State, s.fault = FaultCode.none ∧ s.phase = .accumulating ∧ s.len ≠ 0xFFFFFFFFFFFFFFF8 ∧
      s.len.toNat % 8 = 0 ∧ s.cnt ≠ 63) ∧
    (∃ s : State, s.fault = FaultCode.none ∧ s.phase = .accumulating ∧ s.len ≠ 0xFFFFFFFFFFFFFFF8 ∧
      s.len.toNat % 8 = 0 ∧ s.cnt = 63) :=
  ⟨⟨st .finalized .none 0 0 [], by decide⟩, ⟨st .accumulating .none 63 0xFFFFFFFFFFFFFFF8 [], by decide⟩,
   ⟨st .accumulating .none 62 0xFFFFFFFFFFFFFFF0 [], by decide⟩,
   ⟨st .accumulating .none 63 504 [], by decide⟩⟩

/-- The clauses of `FinalCommand`: finalized, and 0, 55, 56 and 63 pending bytes. -/
theorem witness_FinalCommand :
    (∃ s : State, s.fault = FaultCode.none ∧ s.phase = .finalized) ∧
    (∃ s : State, s.fault = FaultCode.none ∧ s.phase = .accumulating ∧ s.cnt.toNat = 0) ∧
    (∃ s : State, s.fault = FaultCode.none ∧ s.phase = .accumulating ∧ s.cnt.toNat = 55 ∧ s.cnt.toNat ≤ 55) ∧
    (∃ s : State, s.fault = FaultCode.none ∧ s.phase = .accumulating ∧ s.cnt.toNat = 56 ∧ 56 ≤ s.cnt.toNat) ∧
    (∃ s : State, s.fault = FaultCode.none ∧ s.phase = .accumulating ∧ s.cnt.toNat = 63 ∧ 56 ≤ s.cnt.toNat) :=
  ⟨⟨st .finalized .none 0 0 [], by decide⟩, ⟨st .accumulating .none 0 0 [], by decide⟩,
   ⟨st .accumulating .none 55 440 [], by decide⟩, ⟨st .accumulating .none 56 448 [], by decide⟩,
   ⟨st .accumulating .none 63 504 [], by decide⟩⟩

/-- The frames and the repeated commands: `exec` answers a next state, with and without a fault. -/
theorem witness_Frames :
    (∃ t : State, exec .init (st .finalized .none 0 8 []) = .next t) ∧
    (∃ t : State, exec .upd0 (st .finalized .none 0 8 []) = .next t) ∧
    (∃ t : State, exec (.absorb 1) (st .accumulating .none 62 496 []) = .next t ∧ (62 : BitVec 6) ≠ 63) ∧
    (∃ t : State, exec (.absorb 1) (st .finalized .none 0 8 []) = .next t ∧ t.fault ≠ .none) ∧
    (∃ t : State, exec .final (st .accumulating .none 55 440 []) = .next t) ∧
    (∃ t : State, exec .final (st .finalized .none 0 8 []) = .next t ∧ t.fault ≠ .none) :=
  ⟨⟨_, rfl⟩, ⟨_, rfl⟩, ⟨_, rfl, by decide⟩, ⟨_, rfl, by decide⟩, ⟨_, rfl⟩, ⟨_, rfl, by decide⟩⟩

theorem witness_InitForgetsMessage : ∃ s t : State,
    s.fault = .none ∧ t.fault = .none ∧ s.inputs = t.inputs ∧ s ≠ t :=
  ⟨st .finalized .none 0 8 [], st .accumulating .none 1 8 [], by decide⟩

/-- The amounts the compressor uses, at both ends of the range (`RotationBits`). -/
theorem witness_RotationBits : 1 ≤ 1 ∧ 1 ≤ 31 ∧ 1 ≤ 30 ∧ 30 ≤ 31 ∧ 31 ≤ 31 := by decide

/-- The first and last round of each phase (`NonlinearFunctionBits`, `RoundConstants`, `RoundUpdate`). -/
theorem witness_round_phases : (0 ≤ 79 ∧ 0 ≤ 19) ∧ (19 ≤ 79 ∧ 19 ≤ 19) ∧ (20 ≤ 20 ∧ 20 ≤ 39) ∧
    (20 ≤ 39 ∧ 39 ≤ 39) ∧ (40 ≤ 40 ∧ 40 ≤ 59) ∧ (40 ≤ 59 ∧ 59 ≤ 59) ∧ 60 ≤ 60 ∧ (60 ≤ 79 ∧ 79 ≤ 79) := by decide

/-- The first and last words of each part of the schedule, the first and last byte of a block. -/
theorem witness_schedule_indices : 0 < 16 ∧ 15 < 16 ∧ (16 ≤ 16 ∧ 16 ≤ 79) ∧ (16 ≤ 79 ∧ 79 ≤ 79) ∧ 63 < 64 := by
  decide

/-- The working variables of the all-zero block from the all-zero state. -/
def zeroWork : Nat → Work
  | 0 => ⟨0, 0, 0, 0, 0⟩
  | t + 1 =>
    { a := rotl32 (zeroWork t).a 5 + roundF t (zeroWork t).b (zeroWork t).c (zeroWork t).d + (zeroWork t).e + 0 +
        Kt t
      b := (zeroWork t).a, c := rotl32 (zeroWork t).b 30, d := (zeroWork t).c, e := (zeroWork t).d }

theorem witness_CompressIsComposition : ∃ (S : Chain) (B : Block) (W : Nat → Word) (V : Nat → Work),
    (∀ t (ht : t < 16), W t = B[4 * t] ++ B[4 * t + 1] ++ B[4 * t + 2] ++ B[4 * t + 3]) ∧
    (∀ t, 16 ≤ t → t ≤ 79 → W t = rotl32 (W (t - 3) ^^^ W (t - 8) ^^^ W (t - 14) ^^^ W (t - 16)) 1) ∧
    V 0 = { a := S.h0, b := S.h1, c := S.h2, d := S.h3, e := S.h4 } ∧
    (∀ t, t ≤ 79 → V (t + 1) =
      { a := rotl32 (V t).a 5 + roundF t (V t).b (V t).c (V t).d + (V t).e + W t + Kt t
        b := (V t).a, c := rotl32 (V t).b 30, d := (V t).c, e := (V t).d }) :=
  ⟨⟨0, 0, 0, 0, 0⟩, Vector.replicate 64 0, fun _ => 0, zeroWork,
   fun t ht => by simp only [Vector.getElem_replicate]; decide,
   fun _ _ _ => by show (0 : Word) = rotl32 (0 ^^^ 0 ^^^ 0 ^^^ 0) 1; decide,
   rfl, fun _ _ => rfl⟩

theorem witness_MemWriteThenMemRead : (7 < 8) ∧ (55 < 56 ∨ 56 + 8 ≤ 55) ∧ (64 < 56 ∨ 56 + 8 ≤ 64) := by decide

theorem witness_CanonicalBuffersAreEqual :
    Memory.wf (Memory.write (Memory.write [] 63 1) 0 2) = true ∧
    Memory.wf (Memory.write (Memory.write [] 0 2) 63 1) = true ∧
    ∀ i, i < 64 → Memory.read (Memory.write (Memory.write [] 63 1) 0 2) i =
      Memory.read (Memory.write (Memory.write [] 0 2) 63 1) i := by decide

theorem witness_LengthFieldWords : ∀ j (hj : j < 8),
    (Vector.replicate 64 (0 : Byte))[56 + j] = (0 : BitVec 64).extractLsb' (56 - 8 * j) 8 := by decide

/-- `DigestView`: a step with a digest before and after it. -/
theorem witness_DigestView : ∃ s t : State, step s = .next t ∧ s.status.getLsbD 3 = true ∧
    s.digest.isSome = true ∧ t.digest.isSome = true :=
  ⟨st .finalized .none 0 8 [], _, rfl, by decide⟩

/-- `StateWordsWrittenOnly`: `INIT` replaces a state that is not `IV`. -/
theorem witness_StateWordsWrittenOnly : ∃ s t : State, step s = .next t ∧ t.h ≠ s.h :=
  ⟨{ st .finalized .none 0 8 [.cmd 0x0100] with h := ⟨0, 0, 0, 0, 0⟩ }, _, rfl, by decide⟩

/-- The invariant's witness: the state with one byte absorbed meets it and steps. -/
theorem witness_Inv : ∃ s t : State, Inv s ∧ step s = .next t :=
  ⟨{ st .accumulating .none 1 8 [.cmd 0x0400] with buf := [(0, 0x61)] }, _, by constructor <;> decide, rfl⟩

/-- The invariant's other clauses: a finalized instance with `MISUSE`, and `LEN_OVF` at the longest length. -/
theorem witness_Inv_faulted : Inv (st .finalized .misuse 0 8 []) ∧
    Inv { st .accumulating .lenOvf 63 0xFFFFFFFFFFFFFFF8 [] with buf := bufOf (List.replicate 63 0) } :=
  ⟨by constructor <;> decide, by constructor <;> decide⟩

/-- `DeadBytesNeverSeen`: two states that differ in a dead byte only. -/
theorem witness_DeadBytesNeverSeen : ∃ s t s' t' : State, s ≠ t ∧ LiveEq s t ∧ step s = .next s' ∧ step t = .next t' :=
  ⟨{ st .accumulating .none 0 0 [.cmd 0x0361] with buf := [(5, 1)] }, st .accumulating .none 0 0 [.cmd 0x0361],
   _, _, by decide, ⟨rfl, rfl, rfl, rfl, rfl, rfl, fun i hi => absurd hi (Nat.not_lt_zero i)⟩, rfl, rfl⟩

/-- `LiveStateAfterBytes`: from a reset of a frozen instance, and from `INIT`. -/
theorem witness_LiveStateAfterBytes :
    (∃ (s : State) (cs : List Instr) (m : List Byte) (rest : List Input),
      (cs.filter fun i => decide (i ≠ .upd0)) = m.map .absorb ∧ m.length < 2 ^ 61 ∧
      s.inputs = .reset :: (commandInputs cs ++ rest) ∧ cs.length = 3) ∧
    (∃ (s : State) (cs : List Instr) (m : List Byte) (rest : List Input), s.fault = .none ∧
      (cs.filter fun i => decide (i ≠ .upd0)) = m.map .absorb ∧ m.length < 2 ^ 61 ∧
      s.inputs = .cmd 0x0100 :: (commandInputs cs ++ rest) ∧ cs.length = 3) :=
  ⟨⟨st .finalized .misuse 0 0 [.reset, .cmd 0x0200, .cmd 0x0361, .cmd 0x0362], [.upd0, .absorb 0x61, .absorb 0x62],
    [0x61, 0x62], [], by decide⟩,
   ⟨st .finalized .none 0 0 [.cmd 0x0100, .cmd 0x0361, .cmd 0x0200, .cmd 0x0362], [.absorb 0x61, .upd0, .absorb 0x62],
    [0x61, 0x62], [], by decide⟩⟩

theorem witness_HashOfMessage :
    (∃ (s : State) (cs : List Instr) (M : List Byte) (rest : List Input), s.fault = .none ∧
      (cs.filter fun i => decide (i ≠ .upd0)) = M.map .absorb ∧ M.length < 2 ^ 61 ∧
      s.inputs = .cmd 0x0100 :: (commandInputs (cs ++ [.final]) ++ rest)) ∧
    (∃ (s : State) (cs : List Instr) (M : List Byte) (rest : List Input), s.fault ≠ .none ∧
      (cs.filter fun i => decide (i ≠ .upd0)) = M.map .absorb ∧ M.length < 2 ^ 61 ∧
      s.inputs = .reset :: (commandInputs (cs ++ [.final]) ++ rest)) :=
  ⟨⟨st .finalized .none 0 8 [.cmd 0x0100, .cmd 0x0361, .cmd 0x0200, .cmd 0x0400], [.absorb 0x61, .upd0], [0x61], [],
    by decide⟩,
   ⟨st .finalized .misuse 0 8 [.reset, .cmd 0x0400], [], [], [], by decide⟩⟩

/-- The input of `OverlongMessageFaults` at any length, from `INIT` and from a reset of a frozen instance. -/
theorem overlong_inputs (n : Nat) (start : Input) (f : FaultCode) :
    ∃ (s : State) (cs : List Instr) (M : List Byte) (rest : List Input),
      s.fault = f ∧ (cs.filter fun i => decide (i ≠ .upd0)) = M.map .absorb ∧ n ≤ M.length ∧
      s.inputs = start :: (commandInputs (cs ++ [.final]) ++ rest) :=
  ⟨{ State.reset with
      fault := f, inputs := start :: (commandInputs (List.replicate n (.absorb 0) ++ [.final]) ++ []) },
   List.replicate n (.absorb 0), List.replicate n 0, [], rfl,
   by rw [List.filter_replicate_of_pos (by decide), List.map_replicate], by rw [List.length_replicate], rfl⟩

theorem witness_OverlongMessageFaults :
    (∃ (s : State) (cs : List Instr) (M : List Byte) (rest : List Input), s.fault = .none ∧
      (cs.filter fun i => decide (i ≠ .upd0)) = M.map .absorb ∧ 2 ^ 61 ≤ M.length ∧
      s.inputs = .cmd 0x0100 :: (commandInputs (cs ++ [.final]) ++ rest)) ∧
    (∃ (s : State) (cs : List Instr) (M : List Byte) (rest : List Input), s.fault = .misuse ∧
      (cs.filter fun i => decide (i ≠ .upd0)) = M.map .absorb ∧ 2 ^ 61 ≤ M.length ∧
      s.inputs = .reset :: (commandInputs (cs ++ [.final]) ++ rest)) :=
  ⟨overlong_inputs (2 ^ 61) _ _, overlong_inputs (2 ^ 61) _ _⟩

theorem witness_ChunkingInvariance : (st .accumulating .none 1 8 []).phase = .accumulating := rfl

end Sys2Proof.Machine.Tests
end

/-! # The state and its views (spec/10_state.md)

The equations of a step that later proofs start from, the fields of `STATUS`, the `DIGEST` view over a step, and
the live state after the bytes of a message. -/

namespace Sys2Proof.Machine

/-! ## The encoder undone -/

@[simp] theorem opField_joinFields (op data : Byte) : opField (joinFields op data) = op := by
  rw [opField, joinFields, BitVec.extractLsb'_append_eq_left]

@[simp] theorem dataField_joinFields (op data : Byte) : dataField (joinFields op data) = data := by
  rw [dataField, joinFields, BitVec.extractLsb'_append_eq_right]

/-- R58: the word of a command decodes to that command. -/
@[simp] theorem decode_encode (i : Instr) : decode (encode i) = .command i := by
  cases i with
  | init => decide
  | upd0 => decide
  | absorb b => simp [encode, decode]
  | final => decide

/-! ## What a command and a step answer -/

section
variable {s : State}

theorem exec_init_of_unfrozen (hf : s.fault = .none) : exec .init s = .next (initEffect s) :=
  congrArg Host.Outcome.next (ifLive_of_none hf _)

theorem exec_upd0_of_accumulating (hf : s.fault = .none) (hp : s.phase = .accumulating) :
    exec .upd0 s = .next s := by
  rw [exec, execUpd0, ifLive_of_none hf, ifAccumulating_of_accumulating hp, upd0Effect]

theorem exec_absorb_of_accumulating (hf : s.fault = .none) (hp : s.phase = .accumulating)
    (hl : s.len ≠ lenMax) (b : Byte) :
    exec (.absorb b) s = .next (advanceCount (storeMessageByte b s)) := by
  rw [exec, execAbsorb, ifLive_of_none hf, ifAccumulating_of_accumulating hp, absorbEffect, if_neg hl]

theorem step_of_reset {rest : List Input} (hi : s.inputs = .reset :: rest) :
    step s = .next (applyReset (s.setInputs rest)) := by
  rw [step, advance, hi]; rfl

theorem step_of_command {c : CmdWord} {rest : List Input} {i : Instr} (hi : s.inputs = .cmd c :: rest)
    (hd : decode c = .command i) : step s = exec i (s.setInputs rest) := by
  rw [step, advance, hi]
  simp only [applyInput, deliver, hd]

/-! ## The fields of `STATUS` -/

/-- Different causes have different codes (R16). -/
theorem FaultCode.code_inj {f g : FaultCode} : f.code = g.code ↔ f = g := by
  cases f <;> cases g <;> decide

/-- `STATUS` is a function of `PHASE` and `FAULT` alone (R22). -/
theorem State.status_of {p : Phase} {f : FaultCode} (hp : s.phase = p) (hf : s.fault = f) :
    s.status = (0 : BitVec 4) ++ BitVec.ofBool (p.bit == 1 && f.code == 0) ++ f.code ++ p.bit := by
  rw [State.status, State.digestValid, hp, hf]

variable (s)

@[simp] theorem State.status_bit_zero : s.status.getLsbD 0 = true ↔ s.phase = .finalized := by
  rw [s.status_of rfl rfl]
  cases s.phase <;> cases s.fault <;> decide

@[simp] theorem State.status_faultField : s.status.extractLsb' 1 2 = s.fault.code := by
  rw [s.status_of rfl rfl]
  cases s.phase <;> cases s.fault <;> decide

@[simp] theorem State.status_bit_three : s.status.getLsbD 3 = s.digestValid := by
  rw [s.status_of rfl rfl, State.digestValid]
  cases s.phase <;> cases s.fault <;> decide

@[simp] theorem State.status_highBits : s.status.extractLsb' 4 4 = 0 := by
  rw [s.status_of rfl rfl]
  cases s.phase <;> cases s.fault <;> decide

end

/-- Settles O42: each field of the byte is a lemma of its own, and the codes of the causes are distinct. -/
theorem statusFields : Obligations.StatusFields := by
  intro s
  rw [State.status_faultField, State.status_bit_three, State.digestValid_iff]
  exact ⟨s.status_bit_zero, FaultCode.code_inj (g := .none), FaultCode.code_inj (g := .misuse),
    FaultCode.code_inj (g := .lenOvf), FaultCode.code_inj (g := .illegal), Iff.rfl, s.status_highBits⟩

/-- Settles O43: by the cause in `FAULT`. The invariant ties `MISUSE` and `LEN_OVF` to one phase each, which leaves
six of the eight combinations. -/
theorem statusValues : Obligations.StatusValues := by
  intro s hI
  cases hf : s.fault with
  | none => cases hp : s.phase <;> rw [s.status_of hp hf] <;> decide
  | misuse => rw [s.status_of (hI.misuseFinalized hf) hf]; decide
  | lenOvf => rw [s.status_of (hI.lenOvfAtMax hf).1 hf]; decide
  | illegal => cases hp : s.phase <;> rw [s.status_of hp hf] <;> decide

/-! ## The values after reset and after `INIT` -/

/-- `INIT` leaves the live state of a reset (R26): the `LiveEq` of the two, up to the input to come. -/
theorem initEffect_liveEq_reset {s : State} (hf : s.fault = .none) :
    LiveEq (initEffect s) { State.reset with inputs := s.inputs } :=
  { h := rfl, cnt := rfl, len := rfl, phase := rfl, fault := hf, inputs := rfl
    pending := fun i hi => absurd hi (Nat.not_lt_zero i) }

/-- Settles O17: the reset state is read off its definition, and `INIT` takes its effect on an unfrozen core. -/
theorem resetValues : Obligations.ResetValues :=
  ⟨rfl, rfl, rfl, rfl, rfl, fun _ => rfl, by decide, rfl,
    fun _ hf => ⟨_, exec_init_of_unfrozen hf, initEffect_liveEq_reset hf⟩⟩

/-! ## The `DIGEST` view over a step -/

/-- Outside the finalized phase `DIGEST` has no value. -/
theorem State.digest_of_accumulating {s : State} (hp : s.phase = .accumulating) : s.digest = none := by
  by_contra h
  exact absurd (s.digest_ne_none_iff.1 h).1 (by rw [hp]; decide)

/-- A frozen core shows no digest. -/
theorem State.digest_of_frozen {s : State} (hf : s.fault ≠ .none) : s.digest = none := by
  by_contra h
  exact hf (s.digest_ne_none_iff.1 h).2

/-- A finalized, unfrozen core loses its digest with any command: `INIT` leaves the phase, the others raise
`MISUSE` (R89). -/
theorem exec_digest_of_finalized {i : Instr} {s t : State} (hp : s.phase = .finalized) (hf : s.fault = .none)
    (h : exec i s = .next t) : t.digest = none := by
  rcases exec_cases h with ⟨hfz, -⟩ | ⟨-, ⟨-, rfl⟩ | ⟨-, -, rfl⟩ | ⟨hacc, -⟩⟩
  · exact absurd hf hfz
  · exact State.digest_of_accumulating rfl
  · exact State.digest_of_frozen (by simp)
  · exact absurd (hp.symm.trans hacc) (by decide)

/-- A digest survives the idle step only: every input taken in a state that shows a digest ends it. -/
theorem step_eq_self_of_digest {s t : State} (h : step s = .next t) (hs : s.digest ≠ none)
    (ht : t.digest ≠ none) : t = s := by
  obtain ⟨hp, hf⟩ := s.digest_ne_none_iff.1 hs
  rcases step_cases h with ⟨-, hts⟩ | ⟨rest, -, rfl⟩ | ⟨c, rest, -, ⟨why, -, rfl⟩ | ⟨i, -, he⟩⟩
  · exact hts
  · exact absurd (State.digest_of_accumulating rfl) ht
  · rw [illegalWord, ifLive_of_none (s := s.setInputs rest) hf] at ht
    exact absurd (State.digest_of_frozen (by simp)) ht
  · exact absurd (exec_digest_of_finalized (s := s.setInputs rest) hp hf he) ht

/-- Settles O45: bit 3 of `STATUS` is the `DV` that the view tests; and a step between two states with a digest is
the idle one. -/
theorem digestView : Obligations.DigestView := by
  refine ⟨fun s => ?_, fun s t h hs ht => by rw [step_eq_self_of_digest h hs ht]⟩
  rw [State.status_bit_three, State.digest]
  exact ⟨fun hv => if_pos hv, fun hv => if_neg (by simp [hv])⟩

/-! ## The blocks of a message that grows -/

/-- `CNT` counts modulo 64: the return to 0 at a block boundary is the wrap of six bits. -/
@[simp] theorem advanceCount_cnt (s : State) : (advanceCount s).cnt = s.cnt + 1 := by
  by_cases h : s.cnt = 63
  · rw [advanceCount_of_eq h, State.setCnt_cnt, h]; rfl
  · rw [advanceCount_of_ne h, State.setCnt_cnt]

/-- A block that is full does not see the bytes behind it. -/
theorem blockAt_append {m : List Byte} {k : Nat} (h : 64 * (k + 1) ≤ m.length) (l : List Byte) :
    blockAt (m ++ l) k = blockAt m k := by
  rw [blockAt, blockAt]
  congr 1
  funext i
  exact List.getD_append _ _ _ _ (by have := i.isLt; rw [blockBytes]; omega)

/-- The fold over full blocks does not see the bytes behind them. -/
theorem chainBlocks_append (S : Chain) {m : List Byte} {n : Nat} (h : 64 * n ≤ m.length) (l : List Byte) :
    chainBlocks S (m ++ l) n = chainBlocks S m n := by
  induction n with
  | zero => rfl
  | succ n ih => rw [chainBlocks, chainBlocks, ih (by omega), blockAt_append h]

/-- The block in `BUF` is slice `k` of a byte sequence when its 64 bytes are. -/
theorem State.block_eq_blockAt {s : State} {m : List Byte} {k : Nat}
    (h : ∀ i, i < 64 → m[64 * k + i]? = some (s.byteAt i)) : s.block = blockAt m k :=
  s.block_eq _ fun i hi => by
    rw [blockAt, Vector.getElem_ofFn, List.getD_eq_getElem?_getD, blockBytes, h i hi]; rfl

/-! ## The live state after the bytes of a message -/

/-- The live state that R25 gives after the bytes `m`: what reset leaves when `m` is empty, and what every byte that
is absorbed carries on. -/
structure HoldsBytes (m : List Byte) (s : State) : Prop where
  fault : s.fault = .none
  phase : s.phase = .accumulating
  len : s.len.toNat = 8 * m.length
  cnt : s.cnt.toNat = m.length % 64
  /-- `BUF` holds the bytes since the last block boundary. -/
  pending : ∀ i, i < m.length % 64 → m[64 * (m.length / 64) + i]? = some (s.byteAt i)
  /-- `H` is the fold of `Compress` over the full blocks. -/
  chain : s.h = chainBlocks iv m (m.length / 64)

/-- The live state of the empty message. -/
theorem holdsBytes_nil {s : State} (hf : s.fault = .none) (hp : s.phase = .accumulating) (hl : s.len = 0)
    (hc : s.cnt = 0) (hh : s.h = iv) : HoldsBytes [] s :=
  { fault := hf, phase := hp, len := by rw [hl]; rfl, cnt := by rw [hc]; rfl
    pending := fun i hi => absurd hi (Nat.not_lt_zero i), chain := hh }

namespace HoldsBytes

variable {m : List Byte} {s : State}

/-- The input to come does not matter. -/
theorem setInputs (h : HoldsBytes m s) (v : List Input) : HoldsBytes m (s.setInputs v) :=
  ⟨h.fault, h.phase, h.len, h.cnt, h.pending, h.chain⟩

/-- A message that one more byte keeps below `2^61` bytes is not at the longest length. -/
theorem len_ne_lenMax (h : HoldsBytes m s) (hm : m.length + 1 < 2 ^ 61) : s.len ≠ lenMax := by
  intro he
  have hl := h.len
  rw [he, show lenMax.toNat = 18446744073709551608 from rfl] at hl
  omega

/-- Once the next byte is stored, `BUF` holds the bytes since the last boundary and that byte. -/
theorem stored (h : HoldsBytes m s) (b : Byte) {i : Nat} (hi : i ≤ m.length % 64) :
    (m ++ [b])[64 * (m.length / 64) + i]? = some ((storeMessageByte b s).byteAt i) := by
  rw [storeMessageByte_byteAt, h.cnt]
  by_cases he : i = m.length % 64
  · rw [if_pos he, he, Nat.div_add_mod]; simp
  · rw [if_neg he, List.getElem?_append_left (by omega), h.pending i (by omega)]

/-- `LEN` after the next byte: no wrap below `2^61` bytes. -/
theorem len_add_eight (h : HoldsBytes m s) (hm : m.length + 1 < 2 ^ 61) :
    (s.len + 8).toNat = 8 * (m.length + 1) := by
  rw [BitVec.toNat_add, h.len, show (8 : BitVec 64).toNat = 8 from rfl]
  omega

/-- `H` after the next byte: one more block of the fold when the byte completes one, no change otherwise. -/
theorem absorb_chain (h : HoldsBytes m s) (b : Byte) :
    (advanceCount (storeMessageByte b s)).h = chainBlocks iv (m ++ [b]) ((m.length + 1) / 64) := by
  have hfull := chainBlocks_append iv (Nat.mul_div_le m.length 64) [b]
  have hcnt := h.cnt
  by_cases hc : s.cnt = 63
  · have hend : m.length % 64 = 63 := by rw [← hcnt, hc]; rfl
    have hblock : (storeMessageByte b s).block = blockAt (m ++ [b]) (m.length / 64) :=
      State.block_eq_blockAt fun i hi => h.stored b (by omega)
    rw [advanceCount_of_eq (s := storeMessageByte b s) hc, State.setCnt_h, State.compressBuf_h,
      storeMessageByte_h, hblock, h.chain, show (m.length + 1) / 64 = m.length / 64 + 1 by omega, chainBlocks,
      hfull]
  · have hne : s.cnt.toNat ≠ 63 := fun he => hc (BitVec.eq_of_toNat_eq he)
    rw [advanceCount_of_ne (s := storeMessageByte b s) hc, State.setCnt_h, storeMessageByte_h, h.chain,
      show (m.length + 1) / 64 = m.length / 64 by omega, hfull]

/-- R25 over one `ABSORB`. -/
theorem absorb (h : HoldsBytes m s) (hm : m.length + 1 < 2 ^ 61) (b : Byte) :
    HoldsBytes (m ++ [b]) (advanceCount (storeMessageByte b s)) := by
  have hlength : (m ++ [b]).length = m.length + 1 := List.length_append
  constructor
  case fault => simp [h.fault]
  case phase => simp [h.phase]
  case len => rw [advanceCount_len, storeMessageByte_len, h.len_add_eight hm, hlength]
  case cnt =>
    rw [advanceCount_cnt, storeMessageByte_cnt, BitVec.toNat_add, h.cnt, hlength]
    exact Nat.mod_add_mod _ 64 1
  case pending =>
    intro i hi
    rw [hlength] at hi
    rw [hlength, advanceCount_byteAt, show (m.length + 1) / 64 = m.length / 64 by omega]
    exact h.stored b (by omega)
  case chain => rw [h.absorb_chain b, hlength]

/-- R25 over the commands of a message, with any `UPD0` between its bytes: by induction on the commands, the bytes
absorbed so far being general. -/
theorem steps_commands {cs : List Instr} {l : List Byte} {rest : List Input} (h : HoldsBytes m s)
    (hcs : (cs.filter fun i => decide (i ≠ .upd0)) = l.map .absorb) (hm : m.length + l.length < 2 ^ 61)
    (hi : s.inputs = commandInputs cs ++ rest) :
    ∃ t, steps cs.length s = .next t ∧ HoldsBytes (m ++ l) t ∧ t.inputs = rest := by
  induction cs generalizing m l s with
  | nil =>
    obtain rfl : l = [] := List.map_eq_nil_iff.1 hcs.symm
    exact ⟨s, rfl, by rwa [List.append_nil], hi⟩
  | cons c cs ih =>
    have hv := h.setInputs (commandInputs cs ++ rest)
    have hstep : step s = exec c (s.setInputs (commandInputs cs ++ rest)) :=
      step_of_command hi (decode_encode c)
    by_cases hc : c = .upd0
    · subst hc
      rw [exec_upd0_of_accumulating hv.fault hv.phase] at hstep
      rw [List.length_cons, steps_succ hstep]
      exact ih hv hcs hm rfl
    · rw [List.filter_cons_of_pos (by simpa using hc)] at hcs
      obtain ⟨b, l, rfl, rfl, hl⟩ := List.map_eq_cons_iff.1 hcs.symm
      rw [List.length_cons] at hm
      rw [exec_absorb_of_accumulating hv.fault hv.phase (hv.len_ne_lenMax (by omega))] at hstep
      rw [List.length_cons, steps_succ hstep, List.append_cons]
      exact ih (hv.absorb (by omega) b) hl.symm (by simp; omega) (by simp)

end HoldsBytes

/-- A reset, or an `INIT` on an unfrozen core, starts an empty message. -/
theorem step_start_holdsBytes {s : State} {start : Input} {rest : List Input}
    (hs : start = .reset ∨ (start = .cmd 0x0100 ∧ s.fault = .none)) (hi : s.inputs = start :: rest) :
    ∃ t, step s = .next t ∧ HoldsBytes [] t ∧ t.inputs = rest := by
  rcases hs with rfl | ⟨rfl, hf⟩
  · exact ⟨_, step_of_reset hi, holdsBytes_nil rfl rfl rfl rfl rfl, rfl⟩
  · have hinit : exec .init (s.setInputs rest) = .next _ := exec_init_of_unfrozen hf
    exact ⟨_, (step_of_command hi (decode_encode .init)).trans hinit, holdsBytes_nil hf rfl rfl rfl rfl, rfl⟩

/-- R25: the start and the commands of a message lead to the live state of its bytes. -/
theorem steps_holdsBytes {s : State} {start : Input} {cs : List Instr} {m : List Byte} {rest : List Input}
    (hs : start = .reset ∨ (start = .cmd 0x0100 ∧ s.fault = .none))
    (hcs : (cs.filter fun i => decide (i ≠ .upd0)) = m.map .absorb) (hm : m.length < 2 ^ 61)
    (hi : s.inputs = start :: (commandInputs cs ++ rest)) :
    ∃ t, steps (cs.length + 1) s = .next t ∧ HoldsBytes m t ∧ t.inputs = rest := by
  obtain ⟨u, hstep, hu, hui⟩ := step_start_holdsBytes hs hi
  rw [steps_succ hstep]
  exact hu.steps_commands hcs (by simpa using hm) hui

/-- Settles O51: the live state of the bytes, `HoldsBytes`, starts with reset or `INIT` and every command of the
message carries it on. -/
theorem liveStateAfterBytes : Obligations.LiveStateAfterBytes := by
  intro s start cs m rest hs hcs hm hi
  obtain ⟨t, hsteps, h, ht⟩ := steps_holdsBytes hs hcs hm hi
  exact ⟨t, hsteps, h.fault, h.phase, ht, h.len, h.cnt, h.pending, h.chain⟩

end Sys2Proof.Machine

/-! # Byte order and the block buffer (spec/20_memory.md)

What a frozen and a finalized core answer to any command, the commands given twice, `INIT` as the one flush, and
the byte lanes of the schedule words. -/

namespace Sys2Proof.Machine

/-! ## Commands that are ignored or fault -/

section
variable {i : Instr} {s t : State}

/-- R107: a frozen core ignores every command. -/
theorem exec_of_frozen (hf : s.fault ≠ .none) : exec i s = .next s := by
  cases i <;> exact congrArg Host.Outcome.next (ifLive_of_frozen hf _)

/-- R101: on a finalized core every command but `INIT` raises `MISUSE`. -/
theorem exec_of_finalized (hi : i ≠ .init) (hf : s.fault = .none) (hp : s.phase = .finalized) :
    exec i s = .next (raiseFault .misuse s) := by
  cases i with
  | init => exact absurd rfl hi
  | upd0 => rw [exec, execUpd0, ifLive_of_none hf, ifAccumulating_of_finalized hp]
  | absorb b => rw [exec, execAbsorb, ifLive_of_none hf, ifAccumulating_of_finalized hp]
  | final => rw [exec, execFinal, ifLive_of_none hf, ifAccumulating_of_finalized hp]

theorem exec_final_of_accumulating (hf : s.fault = .none) (hp : s.phase = .accumulating) :
    exec .final s = .next (finalEffect s) := by
  rw [exec, execFinal, ifLive_of_none hf, ifAccumulating_of_accumulating hp]

/-! ## Commands given twice -/

/-- R36: `INIT; INIT` equals `INIT`; what it writes does not depend on what it overwrites. -/
theorem exec_init_idempotent (h : exec .init s = .next t) : exec .init t = .next t := by
  by_cases hf : s.fault = .none
  · obtain rfl : initEffect s = t := Host.Outcome.next.inj ((exec_init_of_unfrozen hf).symm.trans h)
    exact exec_init_of_unfrozen hf
  · obtain rfl : s = t := Host.Outcome.next.inj ((exec_of_frozen hf).symm.trans h)
    exact h

/-- R36: `UPD0; UPD0` equals `UPD0`; where the first one faults, the second one is ignored. -/
theorem exec_upd0_idempotent (h : exec .upd0 s = .next t) : exec .upd0 t = .next t := by
  rcases exec_cases h with ⟨-, rfl⟩ | ⟨-, ⟨hi, -⟩ | ⟨-, -, rfl⟩ | ⟨-, ⟨-, rfl⟩ | ⟨hi, -⟩ | ⟨_, hi, -⟩⟩⟩
  · exact h
  · exact nomatch hi
  · exact exec_of_frozen (by simp)
  · exact h
  · exact nomatch hi
  · exact nomatch hi

/-- R36: `FINAL` leaves the finalized phase, in which the next one faults. -/
theorem exec_final_twice (hf : s.fault = .none) (hp : s.phase = .accumulating)
    (h : exec .final s = .next t) : exec .final t = .next (raiseFault .misuse t) := by
  obtain rfl : finalEffect s = t := Host.Outcome.next.inj ((exec_final_of_accumulating hf hp).symm.trans h)
  exact exec_of_finalized (by decide) ((finalEffect_fault s).trans hf) (finalEffect_phase s)

end

/-- Settles O27: one lemma per command. -/
theorem commandsGivenTwice : Obligations.CommandsGivenTwice :=
  ⟨fun _ _ => exec_init_idempotent, fun _ _ => exec_upd0_idempotent, fun _ _ => exec_final_twice⟩

/-! ## `INIT` forgets the message -/

/-- The live state after `INIT` depends on `FAULT` and the input to come alone: with `CNT` at 0 every byte of `BUF`
is dead (R12). -/
theorem initEffect_liveEq {s t : State} (hf : s.fault = t.fault) (hi : s.inputs = t.inputs) :
    LiveEq (initEffect s) (initEffect t) :=
  { h := rfl, cnt := rfl, len := rfl, phase := rfl, fault := hf, inputs := hi
    pending := fun i hi => absurd hi (Nat.not_lt_zero i) }

/-- Settles O28: both cores take the effect of `INIT`, and its live state is the same. -/
theorem initForgetsMessage : Obligations.InitForgetsMessage := fun _ _ hs ht hi =>
  ⟨_, _, exec_init_of_unfrozen hs, exec_init_of_unfrozen ht, initEffect_liveEq (hs.trans ht.symm) hi⟩

/-! ## The byte lanes of the schedule words -/

/-- R30: the number that four bytes are as one word, the first byte at the top. -/
theorem wordBE_toNat (b0 b1 b2 b3 : Byte) : (wordBE b0 b1 b2 b3).toNat =
    b0.toNat * 2 ^ 24 + b1.toNat * 2 ^ 16 + b2.toNat * 2 ^ 8 + b3.toNat := by
  have h0 := b0.isLt
  have h1 := b1.isLt
  have h2 := b2.isLt
  have h3 := b3.isLt
  simp only [wordBE, joinBE, List.foldl, BitVec.toNat_ofNat]
  omega

/-- R31: lane `j` of a word, from the top, is the `j`-th of the four bytes read into it. -/
theorem wordBE_byteLane (b0 b1 b2 b3 : Byte) {j : Nat} (hj : j < 4) :
    (wordBE b0 b1 b2 b3).extractLsb' (24 - 8 * j) 8 = #v[b0, b1, b2, b3][j] := by
  have h1 := b1.isLt
  have h2 := b2.isLt
  have h3 := b3.isLt
  apply BitVec.eq_of_toNat_eq
  rw [BitVec.extractLsb'_toNat, wordBE_toNat, Nat.shiftRight_eq_div_pow]
  match j, hj with
  | 0, _ | 1, _ | 2, _ | 3, _ =>
    dsimp only [Vector.getElem_mk, List.getElem_toArray, List.getElem_cons_zero, List.getElem_cons_succ]
    omega

/-- R64: the expansion leaves the sixteen loaded words where they are. -/
theorem schedule_getD_of_lt (B : Block) {t : Nat} (ht : t < 16) :
    (schedule B).getD t 0 = wordBE B[4 * t] B[4 * t + 1] B[4 * t + 2] B[4 * t + 3] := by
  rw [schedule, expandWords_getD_of_lt _ _ (by rwa [loadedWords_length]), loadedWords_getD B ht]

/-- R31, by word and lane: lane `j` from the top of schedule word `t` is byte `4t + j`. -/
theorem schedule_byteLane (B : Block) {t j : Nat} (ht : t < 16) (hj : j < 4) :
    ((schedule B).getD t 0).extractLsb' (24 - 8 * j) 8 = B[4 * t + j] := by
  rw [schedule_getD_of_lt B ht, wordBE_byteLane _ _ _ _ hj]
  match j, hj with
  | 0, _ | 1, _ | 2, _ | 3, _ => rfl

/-- Settles O35: byte `k` is lane `k mod 4` of word `k div 4`. -/
theorem blockByteLane : Obligations.BlockByteLane := by
  intro B k hk
  have h := schedule_byteLane B (t := k / 4) (j := k % 4) (by omega) (by omega)
  simpa only [Nat.div_add_mod] using h

end Sys2Proof.Machine

/-! # Encoding (spec/30_encoding.md)

A word as its two fields, the encoder and the decoder as inverses, the rows of the opcode table, and the legal and
the illegal words counted. -/

namespace Sys2Proof.Machine

/-! ## A word and its two fields -/

/-- R45: `op` weighs 256 and `data` the rest. -/
theorem joinFields_toNat (op data : Byte) : (joinFields op data).toNat = 256 * op.toNat + data.toNat := by
  rw [joinFields, BitVec.toNat_append, ← Nat.shiftLeft_add_eq_or_of_lt data.isLt, Nat.shiftLeft_eq, Nat.mul_comm]

theorem opField_toNat (c : CmdWord) : (opField c).toNat = c.toNat / 256 := by
  rw [opField, BitVec.extractLsb'_toNat, Nat.shiftRight_eq_div_pow]
  have := c.isLt
  omega

theorem dataField_toNat (c : CmdWord) : (dataField c).toNat = c.toNat % 256 := by
  rw [dataField, BitVec.extractLsb'_toNat, Nat.shiftRight_zero]

/-- R45: the two fields are the whole word. -/
@[simp] theorem joinFields_fields (c : CmdWord) : joinFields (opField c) (dataField c) = c := by
  apply BitVec.eq_of_toNat_eq
  rw [joinFields_toNat, opField_toNat, dataField_toNat, Nat.div_add_mod]

/-- R45: a word is determined by its fields. -/
theorem eq_joinFields_iff {c : CmdWord} {op data : Byte} :
    c = joinFields op data ↔ opField c = op ∧ dataField c = data :=
  ⟨fun h => by simp [h], fun ⟨hop, hdata⟩ => by rw [← hop, ← hdata, joinFields_fields]⟩

/-! ## Encoder and decoder -/

/-- R58: what a legal word decodes to has that word as its encoding. -/
theorem encode_of_decode {c : CmdWord} {i : Instr} (h : decode c = .command i) : encode i = c := by
  rw [← joinFields_fields c]
  unfold decode withoutData at h
  split_ifs at h with hop hdata hop hdata hop hop hdata <;> cases h <;>
    simp only [encode, *]

/-- R58: the decoder and the encoder are inverse to each other. -/
theorem decode_eq_command_iff {c : CmdWord} {i : Instr} : decode c = .command i ↔ c = encode i :=
  ⟨fun h => (encode_of_decode h).symm, fun h => h ▸ decode_encode i⟩

/-- Settles O4: `decode_encode` and `encode_of_decode` are its two directions; the words are read off `joinFields`. -/
theorem decodeEncodeRoundTrip : Obligations.DecodeEncodeRoundTrip :=
  ⟨rfl, rfl, fun b => joinFields_toNat 0x03 b, rfl, decode_encode, fun _ _ => encode_of_decode⟩

/-! ## The rows of the opcode table -/

/-- The mask of a row without operand keeps every bit. -/
theorem and_wordMask (c : CmdWord) : c &&& 0xFFFF = c :=
  BitVec.and_allOnes

/-- The mask of the row of `ABSORB` keeps `op` and clears `data`. -/
theorem and_opMask (c : CmdWord) : c &&& 0xFF00 = joinFields (opField c) 0x00 := by
  conv_lhs => rw [← joinFields_fields c]
  rw [joinFields, show (0xFF00 : CmdWord) = (0xFF : Byte) ++ (0x00 : Byte) from rfl, BitVec.and_append,
    show (0xFF : Byte) = BitVec.allOnes 8 from rfl, BitVec.and_allOnes]
  exact congrArg _ BitVec.and_zero

/-- R48: a word is in the row of `ABSORB` exactly when its `op` is `0x03`. -/
theorem and_opMask_eq_iff {c : CmdWord} : c &&& 0xFF00 = 0x0300 ↔ opField c = 0x03 := by
  rw [and_opMask]
  refine ⟨fun h => ?_, fun h => by rw [h]; rfl⟩
  rw [← opField_joinFields (opField c) 0x00, h]; rfl

/-! ## The legal words -/

/-- Every command with every operand (R48). -/
def commands : List Instr := .init :: .upd0 :: .final :: (FinEnum.toList Byte).map .absorb

theorem mem_commands (i : Instr) : i ∈ commands := by
  cases i <;> simp [commands]

theorem commands_nodup : commands.Nodup := by
  have h : ((FinEnum.toList Byte).map Instr.absorb).Nodup :=
    FinEnum.nodup_toList.map fun _ _ => Instr.absorb.inj
  simp [commands, h]

theorem commands_length : commands.length = 259 := by
  simp [commands, FinEnum.toList]

/-- The encodings of the commands: all legal words (R47). -/
def legalWords : List CmdWord := commands.map encode

theorem mem_legalWords {c : CmdWord} : c ∈ legalWords ↔ ∃ i, decode c = .command i := by
  simp only [legalWords, List.mem_map, mem_commands, true_and, decode_eq_command_iff, eq_comm]

theorem encode_injective : Function.Injective encode := fun i j h =>
  Decoded.command.inj (by rw [← decode_encode i, h, decode_encode])

theorem legalWords_nodup : legalWords.Nodup := commands_nodup.map encode_injective

theorem legalWords_length : legalWords.length = 259 := by
  rw [legalWords, List.length_map, commands_length]

/-- Settles O2: a word selects a command when it is the command's encoding, which each row says field by field; the
legal words are the encodings of the 259 commands. -/
theorem decodeSelectsTableRow : Obligations.DecodeSelectsTableRow := by
  refine ⟨fun c => ?_, legalWords, legalWords_nodup, legalWords_length, fun c => mem_legalWords⟩
  rw [and_wordMask, and_opMask_eq_iff]
  exact ⟨decode_eq_command_iff, decode_eq_command_iff, fun b => decode_eq_command_iff.trans eq_joinFields_iff,
    decode_eq_command_iff⟩

/-! ## The illegal words -/

/-- A word is illegal exactly when no command decodes from it (R47). -/
theorem decode_illegal_iff {c : CmdWord} : (∃ why, decode c = .illegal why) ↔ ¬ ∃ i, decode c = .command i := by
  cases decode c <;> simp

/-- R49: a command without operand is refused exactly when `data` is not `0x00`. -/
theorem withoutData_illegal_iff {i : Instr} {data : Byte} :
    (∃ why, withoutData i data = .illegal why) ↔ data ≠ 0x00 := by
  rw [withoutData]
  split_ifs with h
  · exact iff_of_false (fun ⟨_, hd⟩ => nomatch hd) (absurd h)
  · exact iff_of_true ⟨_, rfl⟩ h

/-- R49: which words are illegal, by the branches of the decoder. -/
theorem decode_illegal_iff_fields {c : CmdWord} : (∃ why, decode c = .illegal why) ↔
    (c.toNat / 256 = 0 ∨ 5 ≤ c.toNat / 256 ∨
      ((c.toNat / 256 = 1 ∨ c.toNat / 256 = 2 ∨ c.toNat / 256 = 4) ∧ c.toNat % 256 ≠ 0)) := by
  rw [← opField_toNat, ← dataField_toNat, decode]
  split_ifs with hinit hupd0 habsorb hfinal
  · rw [withoutData_illegal_iff, hinit, Ne, BitVec.toNat_eq]; simp
  · rw [withoutData_illegal_iff, hupd0, Ne, BitVec.toNat_eq]; simp
  · rw [habsorb]; simp
  · rw [withoutData_illegal_iff, hfinal, Ne, BitVec.toNat_eq]; simp
  · refine iff_of_true ⟨_, rfl⟩ ?_
    bv_omega

/-- Every word that is not legal. -/
def illegalWords : Finset CmdWord := legalWords.toFinsetᶜ

theorem mem_illegalWords {c : CmdWord} : c ∈ illegalWords ↔ ∃ why, decode c = .illegal why := by
  rw [illegalWords, Finset.mem_compl, List.mem_toFinset, mem_legalWords, decode_illegal_iff]

/-- R49: `65536 - 259` words are illegal. -/
theorem illegalWords_card : illegalWords.card = 65277 := by
  rw [illegalWords, Finset.card_compl, List.toFinset_card_of_nodup legalWords_nodup, legalWords_length,
    ← FinEnum.card_eq_fintypeCard]
  rfl

/-- R103: an illegal word on an unfrozen core, in either phase. -/
theorem step_of_illegal {s : State} {c : CmdWord} {rest : List Input} {why : IllegalWord} (hf : s.fault = .none)
    (hi : s.inputs = .cmd c :: rest) (hd : decode c = .illegal why) :
    step s = .next (raiseFault .illegal (s.setInputs rest)) := by
  rw [step, advance, hi]
  simp only [applyInput, deliver, hd, illegalWord, ifLive_of_none (s := s.setInputs rest) hf]

/-- Settles O3: the classes by the branches of the decoder, the count as the complement of the legal words. -/
theorem illegalWordsRaiseIllegal : Obligations.IllegalWordsRaiseIllegal := by
  refine ⟨fun c => decode_illegal_iff_fields, ⟨illegalWords.toList, illegalWords.nodup_toList, ?_, ?_, ?_, ?_⟩,
    fun s c rest why hf hi hd => step_of_illegal hf hi hd⟩
  · rw [Finset.length_toList, illegalWords_card]
  · exact Finset.mem_toList.2 (mem_illegalWords.2 ⟨.unassignedOp, by decide⟩)
  · exact Finset.mem_toList.2 (mem_illegalWords.2 ⟨.unassignedOp, by decide⟩)
  · exact fun c => Finset.mem_toList.trans mem_illegalWords

end Sys2Proof.Machine

/-! # The compressor (spec/40_compressor.md)

The arithmetic on words, the nonlinear function and the constant of a round, the schedule as the one solution of its
load and recurrence, and the 80 rounds as the one solution of theirs. -/

namespace Sys2Proof.Machine

/-! ## Rotation -/

/-- R60: for a constant below 32 the rotation is the library's. -/
theorem rotl32_eq_rotateLeft (x : Word) {n : Nat} (hn : n < 32) : rotl32 x n = x.rotateLeft n :=
  (BitVec.rotateLeft_eq_rotateLeftAux_of_lt hn).symm

/-- R60: the bits that leave at the top are added at the bottom, where the shift has left zeros. -/
theorem rotl32_toNat (x : Word) {n : Nat} (hn : n ≤ 32) :
    (rotl32 x n).toNat = x.toNat * 2 ^ n % 2 ^ 32 + x.toNat / 2 ^ (32 - n) := by
  have hpow : 2 ^ (32 - n) * 2 ^ n = 2 ^ 32 := by rw [← Nat.pow_add, Nat.sub_add_cancel hn]
  have hbottom : x.toNat / 2 ^ (32 - n) < 2 ^ n := Nat.div_lt_of_lt_mul (hpow ▸ x.isLt)
  have htop : x.toNat * 2 ^ n % 2 ^ 32 = (x.toNat % 2 ^ (32 - n)) <<< n := by
    rw [← hpow, Nat.mul_mod_mul_right, Nat.shiftLeft_eq]
  rw [rotl32, BitVec.toNat_or, BitVec.toNat_shiftLeft, BitVec.toNat_ushiftRight, Nat.shiftLeft_eq,
    Nat.shiftRight_eq_div_pow, htop, Nat.shiftLeft_add_eq_or_of_lt hbottom]

/-- R60: bit `i` comes from `n` places below, around the end of the word. -/
theorem rotl32_getLsbD (x : Word) {n i : Nat} (hn : n < 32) (hi : i < 32) :
    (rotl32 x n).getLsbD i = x.getLsbD ((i + (32 - n)) % 32) := by
  rw [rotl32_eq_rotateLeft x hn, BitVec.getLsbD_rotateLeft_of_le hn]
  by_cases h : i < n
  · rw [Nat.mod_eq_of_lt (by omega), Nat.add_comm]; simp [h]
  · rw [show (i + (32 - n)) % 32 = i - n by omega]; simp [h, hi]

/-- Settles O29: the rotation as a sum and bit by bit, each a lemma of its own. -/
theorem rotationBits : Obligations.RotationBits := fun x _ _ hn =>
  ⟨rotl32_toNat x (by omega), fun _ hi => rotl32_getLsbD x (by omega) hi⟩

/-! ## Addition and complement -/

@[simp] theorem add32_toNat (x y : Word) : (add32 x y).toNat = (x.toNat + y.toNat) % 2 ^ 32 :=
  BitVec.toNat_add x y

/-- R62: the exclusive or with all ones is the complement. -/
theorem not32_eq (x : Word) : not32 x = ~~~x :=
  BitVec.xor_allOnes

@[simp] theorem not32_getLsbD (x : Word) {i : Nat} (hi : i < 32) : (not32 x).getLsbD i = !x.getLsbD i := by
  rw [not32_eq, BitVec.getLsbD_not, decide_eq_true hi, Bool.true_and]

/-- Settles O30: addition of words is the library's, and the inner reduction of a sum of three may be dropped. -/
theorem additionAndComplement : Obligations.AdditionAndComplement := by
  refine ⟨fun x y => ⟨add32_toNat x y, BitVec.add_comm x y⟩, fun x y z => ⟨BitVec.add_assoc x y z, ?_⟩,
    fun x => ⟨?_, fun _ hi => not32_getLsbD x hi⟩⟩
  · rw [add32_toNat, add32_toNat, Nat.mod_add_mod]
  · rw [not32_eq, BitVec.toNat_not]

/-! ## The nonlinear function and the constant of a round -/

section
variable {t : Nat} (b c d : Word)

theorem roundF_eq_select (h : t < 20) : roundF t b c d = (b &&& c) ||| (not32 b &&& d) :=
  if_pos h

theorem roundF_eq_parity (h : (20 ≤ t ∧ t < 40) ∨ 60 ≤ t) : roundF t b c d = b ^^^ c ^^^ d := by
  rw [roundF, if_neg (by omega)]
  rcases h with ⟨-, h⟩ | h
  · rw [if_pos h]
  · rw [if_neg (by omega), if_neg (by omega)]

theorem roundF_eq_majority (h : 40 ≤ t ∧ t < 60) :
    roundF t b c d = (b &&& c) ||| (b &&& d) ||| (c &&& d) := by
  rw [roundF, if_neg (by omega), if_neg (by omega), if_pos h.2]

end

/-- Settles O31: by the phase of the round. Where it selects, the bit of `b` decides which of the two terms is left. -/
theorem nonlinearFunctionBits : Obligations.NonlinearFunctionBits := by
  intro t b c d i _ hi
  refine ⟨fun h => ?_, fun h => ?_, fun h => ?_⟩
  · rw [roundF_eq_select b c d (by omega), BitVec.getLsbD_or, BitVec.getLsbD_and, BitVec.getLsbD_and,
      not32_getLsbD b hi]
    cases b.getLsbD i <;> simp
  · rw [roundF_eq_parity b c d (by omega), BitVec.getLsbD_xor, BitVec.getLsbD_xor]
  · rw [roundF_eq_majority b c d (by omega), BitVec.getLsbD_or, BitVec.getLsbD_or, BitVec.getLsbD_and,
      BitVec.getLsbD_and, BitVec.getLsbD_and]

/-- R68: the constant of a round is that of its phase, `t div 20`. -/
theorem Kt_eq_of_phase {t p : Nat} (hlo : 20 * p ≤ t) (hhi : t < 20 * (p + 1)) : Kt t = kTable p :=
  congrArg kTable (Nat.div_eq_of_lt_le (by omega) (by omega))

/-- Settles O32: the phase of the round selects its entry of the table. -/
theorem roundConstants : Obligations.RoundConstants := fun _ _ =>
  ⟨fun _ => Kt_eq_of_phase (p := 0) (by omega) (by omega), fun _ => Kt_eq_of_phase (p := 1) (by omega) (by omega),
    fun _ => Kt_eq_of_phase (p := 2) (by omega) (by omega), fun _ => Kt_eq_of_phase (p := 3) (by omega) (by omega)⟩

/-! ## The schedule -/

/-- Settles O33: the expansion leaves the loaded words, and each is its four bytes as a number. -/
theorem scheduleLoad : Obligations.ScheduleLoad := fun B =>
  ⟨schedule_length B, fun t ht => by rw [schedule_getD_of_lt B ht, wordBE_toNat]⟩

/-- The recurrence reads only words before the new one (R65). -/
theorem nextWord_congr {W W' : List Word} {t : Nat} (ht : 16 ≤ t)
    (h : ∀ j, j < t → W.getD j 0 = W'.getD j 0) : nextWord W t = nextWord W' t := by
  rw [nextWord, nextWord, h _ (by omega), h _ (by omega), h _ (by omega), h _ (by omega)]

/-- Every word the expansion adds follows the recurrence in the expanded list (R65). -/
theorem expandWords_getD_of_ge {k t : Nat} {W : List Word} (hW : 16 ≤ W.length) (hlo : W.length ≤ t)
    (hhi : t < W.length + k) : (expandWords k W).getD t 0 = nextWord (expandWords k W) t := by
  induction k generalizing W with
  | zero => omega
  | succ k ih =>
    rcases Nat.eq_or_lt_of_le hlo with rfl | hlt
    · rw [expandWords_getD_length]
      exact nextWord_congr hW fun j hj => (expandWords_getD_of_lt _ W hj).symm
    · have hlen : (W ++ [nextWord W W.length]).length = W.length + 1 := by simp
      exact ih (by omega) (by omega) (by omega)

/-- R65: from word 16 on the schedule follows the recurrence. -/
theorem schedule_getD_of_ge (B : Block) {t : Nat} (hlo : 16 ≤ t) (hhi : t < 80) :
    (schedule B).getD t 0 = nextWord (schedule B) t := by
  have hlen := loadedWords_length B
  exact expandWords_getD_of_ge (by omega) (by omega) (by rw [hlen, expandedWords]; omega)

/-- Settles O34: each word that the expansion adds follows the recurrence in the whole schedule. -/
theorem scheduleRecurrence : Obligations.ScheduleRecurrence := fun B _ hlo hhi =>
  schedule_getD_of_ge B hlo (by omega)

/-- A byte joined below a word adds to the word moved up by eight places. -/
theorem append_byte_toNat {n : Nat} (x : BitVec n) (b : Byte) : (x ++ b).toNat = x.toNat * 2 ^ 8 + b.toNat := by
  rw [BitVec.toNat_append, ← Nat.shiftLeft_add_eq_or_of_lt b.isLt, Nat.shiftLeft_eq]

/-- R64: the big-endian reading of four bytes is their concatenation, the first at the top. -/
theorem wordBE_eq_append (b0 b1 b2 b3 : Byte) : wordBE b0 b1 b2 b3 = b0 ++ b1 ++ b2 ++ b3 := by
  apply BitVec.eq_of_toNat_eq
  rw [wordBE_toNat, append_byte_toNat, append_byte_toNat, append_byte_toNat]
  omega

/-- Words that follow the load and the recurrence are the schedule (R64, R65). -/
theorem schedule_getD_eq {B : Block} {W : Nat → Word}
    (hload : ∀ t (ht : t < 16), W t = B[4 * t] ++ B[4 * t + 1] ++ B[4 * t + 2] ++ B[4 * t + 3])
    (hrec : ∀ t, 16 ≤ t → t ≤ 79 → W t = rotl32 (W (t - 3) ^^^ W (t - 8) ^^^ W (t - 14) ^^^ W (t - 16)) 1)
    {t : Nat} (ht : t < 80) : (schedule B).getD t 0 = W t := by
  induction t using Nat.strongRecOn with
  | _ t ih =>
    by_cases hlo : t < 16
    · rw [schedule_getD_of_lt B hlo, wordBE_eq_append, hload t hlo]
    · rw [schedule_getD_of_ge B (by omega) ht, nextWord, ih (t - 3) (by omega) (by omega),
        ih (t - 8) (by omega) (by omega), ih (t - 14) (by omega) (by omega), ih (t - 16) (by omega) (by omega),
        hrec t (by omega) (by omega)]

/-! ## The rounds -/

/-- R69: `temp` with its terms in the order of the rule. -/
theorem roundTemp_eq (t : Nat) (w : Word) (v : Work) :
    roundTemp t w v = rotl32 v.a 5 + roundF t v.b v.c v.d + v.e + w + Kt t := by
  simp only [roundTemp, add32]
  ac_rfl

/-- Settles O36: `temp` is the sum of the rule, whose inner reductions may be dropped; the others are moves. -/
theorem roundUpdate : Obligations.RoundUpdate := by
  refine fun t w v _ => ⟨?_, rfl, rfl, rfl, rfl⟩
  rw [roundStep, roundTemp_eq]
  simp only [BitVec.toNat_add, Nat.mod_add_mod]

/-- Working variables that follow the rounds are what the rounds compute (R69). -/
theorem roundsFrom_eq {V : Nat → Work} {t : Nat} {W : List Word}
    (hV : ∀ i, i < W.length → V (t + i + 1) = roundStep (t + i) (W.getD i 0) (V (t + i))) :
    roundsFrom t W (V t) = V (t + W.length) := by
  induction W generalizing t with
  | nil => rfl
  | cons w W ih =>
    have hfirst : V (t + 1) = roundStep t w (V t) := hV 0 (Nat.succ_pos _)
    rw [roundsFrom, ← hfirst, ih, List.length_cons, Nat.add_assoc, Nat.add_comm 1]
    intro i hi
    have hnext := hV (i + 1) (Nat.succ_lt_succ hi)
    rwa [List.getD_cons_succ, Nat.add_left_comm, Nat.add_comm i] at hnext

/-- Settles O37: `W` is the schedule and `V` follows its rounds, so `V 80` is what the feed-forward adds. -/
theorem compressIsComposition : Obligations.CompressIsComposition := by
  intro S B W V hload hrec hinit hround
  have hstep : ∀ i, i < (schedule B).length →
      V (0 + i + 1) = roundStep (0 + i) ((schedule B).getD i 0) (V (0 + i)) := by
    intro i hi
    rw [schedule_length] at hi
    rw [schedule_getD_eq hload hrec hi, Nat.zero_add, hround i (by omega), roundStep, roundTemp_eq]
  have hlast : roundsFrom 0 (schedule B) (initWork S) = V 80 := by
    rw [initWork, ← hinit, roundsFrom_eq hstep, schedule_length]
  rw [compress_eq, hlast]
  rfl

end Sys2Proof.Machine

/-! # The commands of the framer (spec/41_framer_commands.md)

`Step(c)`, the phase machine, each command's effect, the frames of `FINAL`, the live state as a congruence of the
step, the digest of a whole message, and its chunks. -/

namespace Sys2Proof.Machine

/-! ## `Step(c)` -/

/-- R80: a command answers a state, whatever state it is given in. -/
theorem exec_total (i : Instr) (s : State) : ∃ t, exec i s = .next t := by
  cases i <;> exact ⟨_, rfl⟩

section
variable {s : State}

theorem step_of_idle (hi : s.inputs = []) : step s = .next s := by
  rw [step, advance, hi]

/-- R107: a frozen core takes the word, legal or not, and ignores it. -/
theorem step_of_frozen {c : CmdWord} {rest : List Input} (hf : s.fault ≠ .none)
    (hi : s.inputs = .cmd c :: rest) : step s = .next (s.setInputs rest) := by
  cases hd : decode c with
  | command i => rw [step_of_command hi hd, exec_of_frozen (s := s.setInputs rest) hf]
  | illegal why =>
    rw [step, advance, hi]
    simp only [applyInput, deliver, hd, illegalWord, ifLive_of_frozen (s := s.setInputs rest) hf]

end

/-- R80: a step answers a state. -/
theorem step_total (s : State) : ∃ t, step s = .next t := by
  cases hi : s.inputs with
  | nil => exact ⟨s, step_of_idle hi⟩
  | cons e rest =>
    cases e with
    | reset => exact ⟨_, step_of_reset hi⟩
    | cmd c =>
      cases hd : decode c with
      | command i => rw [step_of_command hi hd]; exact exec_total i _
      | illegal why =>
        by_cases hf : s.fault = .none
        · exact ⟨_, step_of_illegal hf hi hd⟩
        · exact ⟨_, step_of_frozen hf hi⟩

/-- Settles O9: a lemma for each of the three cases of R80, and totality over every input. -/
theorem stepFollowsCommandWord : Obligations.StepFollowsCommandWord :=
  ⟨fun _ _ _ hi => ⟨fun hf => step_of_frozen hf hi,
    fun hf => ⟨fun _ hd => step_of_illegal hf hi hd, fun _ hd => step_of_command hi hd⟩⟩, step_total, exec_total⟩

/-! ## `INIT` and `UPD0` -/

/-- Settles O19: the effect of `INIT` on an unfrozen core, and a frozen one ignores it. -/
theorem initCommand : Obligations.InitCommand := fun _ =>
  ⟨fun hf => exec_init_of_unfrozen hf, fun hf => exec_of_frozen hf⟩

/-- Settles O20: no effect while accumulating, `MISUSE` when finalized. -/
theorem upd0Command : Obligations.Upd0Command := fun _ hf =>
  ⟨fun hp => exec_upd0_of_accumulating hf hp, fun hp => exec_of_finalized (by decide) hf hp⟩

/-! ## `ABSORB` -/

section
variable {s : State}

/-- R102: one more byte than the longest message. -/
theorem exec_absorb_of_lenMax (hf : s.fault = .none) (hp : s.phase = .accumulating) (hl : s.len = lenMax) (b : Byte) :
    exec (.absorb b) s = .next (raiseFault .lenOvf s) := by
  rw [exec, execAbsorb, ifLive_of_none hf, ifAccumulating_of_accumulating hp, absorbEffect, if_pos hl]

/-- R14: a whole number of bytes that is not the longest length has room for 8 more bits. -/
theorem len_add_eight_toNat {len : BitVec 64} (hmod : len.toNat % 8 = 0) (hl : len ≠ lenMax) :
    (len + 8).toNat = len.toNat + 8 := by
  have hne : len.toNat ≠ 18446744073709551608 := fun he => hl (BitVec.eq_of_toNat_eq he)
  have hlt := len.isLt
  rw [BitVec.toNat_add, show (8 : BitVec 64).toNat = 8 from rfl]
  omega

/-- `CNT` below the block boundary counts up without a wrap (R13). -/
theorem cnt_add_one_toNat {cnt : BitVec 6} (hc : cnt ≠ 63) : (cnt + 1).toNat = cnt.toNat + 1 := by
  bv_omega

/-- The block that the 64th byte completes (R83). -/
theorem storeMessageByte_block (b : Byte) (hc : s.cnt = 63) : (storeMessageByte b s).block =
    Vector.ofFn fun i : Fin 64 => if i.val = 63 then b else s.byteAt i.val := by
  refine State.block_eq _ _ fun i hi => ?_
  rw [storeMessageByte_byteAt, hc, Vector.getElem_ofFn]
  rfl

end

/-- Settles O21: the two faults by the tests that raise them, and the absorbed byte by whether it completes the
block. -/
theorem absorbCommand : Obligations.AbsorbCommand := by
  refine fun s b hf => ⟨fun hp => exec_of_finalized nofun hf hp, fun hp hl => exec_absorb_of_lenMax hf hp hl b,
    fun hp hl => ⟨_, exec_absorb_of_accumulating hf hp hl b, ?_, fun i hi => ?_, ?_, fun hmod => ?_, ?_, ?_, ?_, ?_,
      fun hc => ⟨?_, ?_⟩, fun hc => ⟨?_, ?_⟩⟩⟩
  · rw [advanceCount_byteAt, storeMessageByte_byteAt, if_pos rfl]
  · rw [advanceCount_byteAt, storeMessageByte_byteAt, if_neg hi]
  · simp
  · rw [advanceCount_len, storeMessageByte_len, len_add_eight_toNat hmod hl]
  · simp [hp]
  · simp [hf]
  · simp
  · simp
  · rw [advanceCount_of_ne (s := storeMessageByte b s) hc, State.setCnt_h, storeMessageByte_h]
  · rw [advanceCount_cnt, storeMessageByte_cnt, cnt_add_one_toNat hc]
  · rw [advanceCount_cnt, storeMessageByte_cnt, hc]; rfl
  · rw [advanceCount_of_eq (s := storeMessageByte b s) hc, State.setCnt_h, State.compressBuf_h, storeMessageByte_h,
      storeMessageByte_block b hc]

/-! ## The phase machine -/

section
variable {s t : State}

/-- R89, the row of `INIT`. -/
theorem exec_init_phase_fault (hf : s.fault = .none) (h : exec .init s = .next t) :
    t.phase = .accumulating ∧ t.fault = .none := by
  obtain rfl := Host.Outcome.next.inj ((exec_init_of_unfrozen hf).symm.trans h)
  exact ⟨rfl, hf⟩

/-- R89, the finalized phase: every command but `INIT` leaves it and raises `MISUSE`. -/
theorem exec_finalized_phase_fault {i : Instr} (h : exec i s = .next t) (hi : i ≠ .init) (hf : s.fault = .none)
    (hp : s.phase = .finalized) : t.phase = .finalized ∧ t.fault = .misuse := by
  obtain rfl := Host.Outcome.next.inj ((exec_of_finalized hi hf hp).symm.trans h)
  exact ⟨hp, rfl⟩

/-- R89, the rows of `UPD0`. -/
theorem exec_upd0_phase_fault (hf : s.fault = .none) (h : exec .upd0 s = .next t) : t.phase = s.phase ∧
    (s.phase = .accumulating → t.fault = .none) ∧ (s.phase = .finalized → t.fault = .misuse) := by
  cases hp : s.phase with
  | accumulating =>
    obtain rfl := Host.Outcome.next.inj ((exec_upd0_of_accumulating hf hp).symm.trans h)
    exact ⟨hp, fun _ => hf, nofun⟩
  | finalized =>
    obtain ⟨htp, htf⟩ := exec_finalized_phase_fault h nofun hf hp
    exact ⟨htp, nofun, fun _ => htf⟩

/-- R89, the rows of `ABSORB`. -/
theorem exec_absorb_phase_fault {b : Byte} (hf : s.fault = .none) (h : exec (.absorb b) s = .next t) :
    t.phase = s.phase ∧ (s.phase = .accumulating → s.len ≠ lenMax → t.fault = .none) ∧
      (s.phase = .accumulating → s.len = lenMax → t.fault = .lenOvf) ∧ (s.phase = .finalized → t.fault = .misuse) := by
  cases hp : s.phase with
  | accumulating =>
    by_cases hl : s.len = lenMax
    · obtain rfl := Host.Outcome.next.inj ((exec_absorb_of_lenMax hf hp hl b).symm.trans h)
      exact ⟨hp, fun _ hne => absurd hl hne, fun _ _ => rfl, nofun⟩
    · obtain rfl := Host.Outcome.next.inj ((exec_absorb_of_accumulating hf hp hl b).symm.trans h)
      exact ⟨by simp [hp], fun _ _ => by simp [hf], fun _ he => absurd he hl, nofun⟩
  | finalized =>
    obtain ⟨htp, htf⟩ := exec_finalized_phase_fault h nofun hf hp
    exact ⟨htp, nofun, nofun, fun _ => htf⟩

/-- R89, the rows of `FINAL`. -/
theorem exec_final_phase_fault (hf : s.fault = .none) (h : exec .final s = .next t) : t.phase = .finalized ∧
    (s.phase = .accumulating → t.fault = .none) ∧ (s.phase = .finalized → t.fault = .misuse) := by
  cases hp : s.phase with
  | accumulating =>
    obtain rfl := Host.Outcome.next.inj ((exec_final_of_accumulating hf hp).symm.trans h)
    exact ⟨finalEffect_phase s, fun _ => (finalEffect_fault s).trans hf, nofun⟩
  | finalized =>
    obtain ⟨htp, htf⟩ := exec_finalized_phase_fault h nofun hf hp
    exact ⟨htp, nofun, fun _ => htf⟩

end

/-- Settles O15: the rows of each command, and an illegal word writes `FAULT` alone. -/
theorem phaseMachine : Obligations.PhaseMachine := by
  intro s t c rest hf hi hstep
  have hexec {i : Instr} (hd : decode c = .command i) : exec i (s.setInputs rest) = .next t :=
    (step_of_command hi hd).symm.trans hstep
  refine ⟨fun hd => exec_init_phase_fault (s := s.setInputs rest) hf (hexec hd),
    fun hd => exec_upd0_phase_fault (s := s.setInputs rest) hf (hexec hd),
    fun b hd => exec_absorb_phase_fault (s := s.setInputs rest) hf (hexec hd),
    fun hd => exec_final_phase_fault (s := s.setInputs rest) hf (hexec hd), fun why hd => ?_⟩
  obtain rfl := Host.Outcome.next.inj ((step_of_illegal hf hi hd).symm.trans hstep)
  exact ⟨rfl, rfl⟩

/-! ## The frames of `FINAL` -/

/-- The frame of a `FINAL` that needs one alone (R85, `CNT <= 55`): the pending bytes, the terminator, zeros, and
`LEN`. -/
def soleFrame (s : State) : Block := Vector.ofFn fun i : Fin 64 =>
  if i.val < s.cnt.toNat then s.byteAt i.val else if i.val = s.cnt.toNat then 0x80
  else if i.val < 56 then 0x00 else s.len.extractLsb' (8 * (63 - i.val)) 8

/-- The first of two frames (R85, `CNT >= 56`): the pending bytes, the terminator, zeros. -/
def firstFrame (s : State) : Block := Vector.ofFn fun i : Fin 64 =>
  if i.val < s.cnt.toNat then s.byteAt i.val else if i.val = s.cnt.toNat then 0x80 else 0x00

/-- The second of two frames: zeros and `LEN`. -/
def lastFrame (s : State) : Block := Vector.ofFn fun i : Fin 64 =>
  if i.val < 56 then 0x00 else s.len.extractLsb' (8 * (63 - i.val)) 8

section
variable {s : State}

/-- With at most 55 pending bytes the frame that `FINAL` leaves in `BUF` is the sole one. -/
theorem finalEffect_byteAt_soleFrame (hc : s.cnt.toNat ≤ 55) {i : Nat} (hi : i < 64) :
    (finalEffect s).byteAt i = (soleFrame s)[i] := by
  rw [finalEffect_byteAt, padToLength_byteAt_one (by omega) (by omega), soleFrame, Vector.getElem_ofFn,
    Nat.add_sub_cancel]
  dsimp only
  by_cases hlen : 56 ≤ i
  · rw [if_pos ⟨hlen, hi⟩, if_neg (by omega), if_neg (by omega), if_neg (by omega)]; rfl
  · rw [if_neg (by omega)]
    rcases Nat.lt_trichotomy i s.cnt.toNat with h | h | h
    · rw [if_neg (by omega), if_neg (by omega), if_pos h]
    · rw [if_pos h, if_neg (by omega), if_pos h]; rfl
    · rw [if_neg (by omega), if_pos (by omega), if_neg (by omega), if_neg (by omega), if_pos (by omega)]

/-- With at least 56 pending bytes it is the second of two. -/
theorem finalEffect_byteAt_lastFrame (hc : 56 ≤ s.cnt.toNat) {i : Nat} (hi : i < 64) :
    (finalEffect s).byteAt i = (lastFrame s)[i] := by
  rw [finalEffect_byteAt, padToLength_byteAt_two (by omega), lastFrame, Vector.getElem_ofFn]
  dsimp only
  by_cases hlen : i < 56
  · rw [if_neg (by omega), if_pos hlen, if_pos hlen]
  · rw [if_pos (by omega), if_neg hlen]; rfl

/-- What the padding compresses first when two frames are needed. -/
theorem intermediateFrame_block :
    ((s.writeBytes (s.cnt.toNat + 1 - 1) [terminator]).zeroFill (s.cnt.toNat + 1) blockBytes).block =
      firstFrame s := by
  refine State.block_eq _ _ fun i hi => ?_
  rw [intermediateFrame_byteAt s (by omega), firstFrame, Vector.getElem_ofFn, Nat.add_sub_cancel]
  dsimp only
  rcases Nat.lt_trichotomy i s.cnt.toNat with h | h | h
  · rw [if_neg (by omega), if_neg (by omega), if_pos h]
  · rw [if_pos h, if_neg (by omega), if_pos h]; rfl
  · rw [if_neg (by omega), if_pos (by omega), if_neg (by omega), if_neg (by omega)]

/-- R85: one compression with at most 55 pending bytes. -/
theorem finalEffect_h_one (hc : s.cnt.toNat ≤ 55) : (finalEffect s).h = compress s.h (soleFrame s) := by
  rw [finalEffect_h, padToLength_h, if_pos (by omega),
    State.block_eq _ _ fun _ hi => finalEffect_byteAt_soleFrame hc hi]

/-- R85: two compressions with at least 56. -/
theorem finalEffect_h_two (hc : 56 ≤ s.cnt.toNat) :
    (finalEffect s).h = compress (compress s.h (firstFrame s)) (lastFrame s) := by
  rw [finalEffect_h, padToLength_h, if_neg (by omega), intermediateFrame_block,
    State.block_eq _ _ fun _ hi => finalEffect_byteAt_lastFrame hc hi]

end

/-- Settles O22: the frames are those of the statement, and the other fields are those of `finalEffect`. -/
theorem finalCommand : Obligations.FinalCommand := by
  refine fun s hf => ⟨fun hp => exec_of_finalized nofun hf hp, fun hp hc => ?_, fun hp hc => ?_⟩
  · exact ⟨_, exec_final_of_accumulating hf hp, finalEffect_h_one hc,
      fun i => finalEffect_byteAt_soleFrame hc i.isLt, finalEffect_cnt s, finalEffect_len s, finalEffect_phase s,
      (finalEffect_fault s).trans hf, finalEffect_inputs s, finalEffect_resets s⟩
  · exact ⟨_, exec_final_of_accumulating hf hp, finalEffect_h_two hc,
      fun i => finalEffect_byteAt_lastFrame hc i.isLt, finalEffect_cnt s, finalEffect_len s, finalEffect_phase s,
      (finalEffect_fault s).trans hf, finalEffect_inputs s, finalEffect_resets s⟩

/-! ## Dead bytes of `BUF` -/

section
variable {s t : State}

/-- R22, R23: the views show `PHASE`, `FAULT` and `H` alone. -/
theorem LiveEq.views (h : LiveEq s t) : s.status = t.status ∧ s.digest = t.digest := by
  refine ⟨(s.status_of h.phase h.fault).trans (t.status_of rfl rfl).symm, ?_⟩
  rw [State.digest, State.digest, State.digestValid, State.digestValid, h.phase, h.fault, h.h]

theorem setInputs_liveEq (h : LiveEq s t) (v : List Input) : LiveEq (s.setInputs v) (t.setInputs v) :=
  { h with inputs := rfl, pending := h.pending }

theorem raiseFault_liveEq (h : LiveEq s t) (x : FaultCode) : LiveEq (raiseFault x s) (raiseFault x t) :=
  { h with fault := rfl, pending := h.pending }

theorem applyReset_liveEq (h : LiveEq s t) : LiveEq (applyReset s) (applyReset t) :=
  { h := rfl, cnt := rfl, len := rfl, phase := rfl, fault := rfl, inputs := h.inputs
    pending := fun i hi => absurd hi (Nat.not_lt_zero i) }

/-- With the next byte stored behind the live ones, one byte more agrees. -/
theorem storeMessageByte_byteAt_congr (h : LiveEq s t) (b : Byte) {i : Nat} (hi : i ≤ s.cnt.toNat) :
    (storeMessageByte b s).byteAt i = (storeMessageByte b t).byteAt i := by
  rw [storeMessageByte_byteAt, storeMessageByte_byteAt, ← h.cnt]
  split_ifs with he
  · rfl
  · exact h.pending i (by omega)

/-- `ABSORB` compresses live bytes only: at a boundary all 64 are live once the byte is stored. -/
theorem absorb_h_congr (h : LiveEq s t) (b : Byte) :
    (advanceCount (storeMessageByte b s)).h = (advanceCount (storeMessageByte b t)).h := by
  by_cases hc : s.cnt = 63
  · have hblock : (storeMessageByte b s).block = (storeMessageByte b t).block :=
      State.block_congr fun i hi => storeMessageByte_byteAt_congr h b (by rw [hc]; exact Nat.le_of_lt_succ hi)
    rw [advanceCount_of_eq (s := storeMessageByte b s) hc,
      advanceCount_of_eq (s := storeMessageByte b t) (h.cnt.symm.trans hc)]
    simp [hblock, h.h]
  · rw [advanceCount_of_ne (s := storeMessageByte b s) hc,
      advanceCount_of_ne (s := storeMessageByte b t) fun ht => hc (h.cnt.trans ht)]
    simp [h.h]

theorem absorb_liveEq (h : LiveEq s t) (b : Byte) :
    LiveEq (advanceCount (storeMessageByte b s)) (advanceCount (storeMessageByte b t)) where
  h := absorb_h_congr h b
  cnt := by simp [h.cnt]
  len := by simp [h.len]
  phase := by simp [h.phase]
  fault := by simp [h.fault]
  inputs := by simp [h.inputs]
  pending i hi := by
    rw [advanceCount_cnt, storeMessageByte_cnt] at hi
    rw [advanceCount_byteAt, advanceCount_byteAt, storeMessageByte_byteAt_congr h b (by bv_omega)]

theorem soleFrame_congr (h : LiveEq s t) : soleFrame s = soleFrame t := by
  rw [soleFrame, soleFrame, ← h.cnt, ← h.len]
  exact congrArg Vector.ofFn (funext fun i => ite_congr rfl (h.pending i) fun _ => rfl)

theorem firstFrame_congr (h : LiveEq s t) : firstFrame s = firstFrame t := by
  rw [firstFrame, firstFrame, ← h.cnt]
  exact congrArg Vector.ofFn (funext fun i => ite_congr rfl (h.pending i) fun _ => rfl)

theorem lastFrame_congr (h : LiveEq s t) : lastFrame s = lastFrame t := by
  rw [lastFrame, lastFrame, h.len]

/-- `FINAL` compresses frames that are made of live state. -/
theorem finalEffect_h_congr (h : LiveEq s t) : (finalEffect s).h = (finalEffect t).h := by
  by_cases hc : s.cnt.toNat ≤ 55
  · rw [finalEffect_h_one hc, finalEffect_h_one (h.cnt ▸ hc), h.h, soleFrame_congr h]
  · have hc' : 56 ≤ s.cnt.toNat := by omega
    rw [finalEffect_h_two hc', finalEffect_h_two (h.cnt ▸ hc'), h.h, firstFrame_congr h, lastFrame_congr h]

theorem finalEffect_liveEq (h : LiveEq s t) : LiveEq (finalEffect s) (finalEffect t) where
  h := finalEffect_h_congr h
  cnt := by simp
  len := by simp [h.len]
  phase := by simp
  fault := by simp [h.fault]
  inputs := by simp [h.inputs]
  pending i hi := absurd hi (by simp)

/-- A command on an unfrozen core, by phase and command. -/
theorem exec_liveEq (h : LiveEq s t) (hf : s.fault = .none) (i : Instr) :
    ∃ s' t', exec i s = .next s' ∧ exec i t = .next t' ∧ LiveEq s' t' := by
  have hft := h.fault.symm.trans hf
  by_cases hinit : i = .init
  · subst hinit
    exact ⟨_, _, exec_init_of_unfrozen hf, exec_init_of_unfrozen hft, initEffect_liveEq h.fault h.inputs⟩
  cases hp : s.phase with
  | finalized =>
    exact ⟨_, _, exec_of_finalized hinit hf hp, exec_of_finalized hinit hft (h.phase.symm.trans hp),
      raiseFault_liveEq h _⟩
  | accumulating =>
    have hpt := h.phase.symm.trans hp
    cases i with
    | init => exact absurd rfl hinit
    | upd0 => exact ⟨_, _, exec_upd0_of_accumulating hf hp, exec_upd0_of_accumulating hft hpt, h⟩
    | absorb b =>
      by_cases hl : s.len = lenMax
      · exact ⟨_, _, exec_absorb_of_lenMax hf hp hl b, exec_absorb_of_lenMax hft hpt (h.len.symm.trans hl) b,
          raiseFault_liveEq h _⟩
      · exact ⟨_, _, exec_absorb_of_accumulating hf hp hl b,
          exec_absorb_of_accumulating hft hpt (h.len ▸ hl) b, absorb_liveEq h b⟩
    | final => exact ⟨_, _, exec_final_of_accumulating hf hp, exec_final_of_accumulating hft hpt, finalEffect_liveEq h⟩

/-- A step, by the input it takes: two cores that agree in everything live take the same one. -/
theorem step_liveEq (h : LiveEq s t) : ∃ s' t', step s = .next s' ∧ step t = .next t' ∧ LiveEq s' t' := by
  cases hi : s.inputs with
  | nil => exact ⟨s, t, step_of_idle hi, step_of_idle (h.inputs ▸ hi), h⟩
  | cons e rest =>
    have hit := h.inputs.symm.trans hi
    have hrest := setInputs_liveEq h rest
    cases e with
    | reset => exact ⟨_, _, step_of_reset hi, step_of_reset hit, applyReset_liveEq hrest⟩
    | cmd c =>
      by_cases hf : s.fault = .none
      · cases hd : decode c with
        | command i =>
          rw [step_of_command hi hd, step_of_command hit hd]
          exact exec_liveEq hrest hf i
        | illegal why =>
          exact ⟨_, _, step_of_illegal hf hi hd, step_of_illegal (h.fault ▸ hf) hit hd, raiseFault_liveEq hrest _⟩
      · exact ⟨_, _, step_of_frozen hf hi, step_of_frozen (h.fault ▸ hf) hit, hrest⟩

end

/-- Settles O50: the step carries `LiveEq` on, and the views are functions of what is live. -/
theorem deadBytesNeverSeen : Obligations.DeadBytesNeverSeen := by
  intro s t s' t' h hs ht
  obtain ⟨u, v, hu, hv, huv⟩ := step_liveEq h
  obtain rfl := Host.Outcome.next.inj (hs.symm.trans hu)
  obtain rfl := Host.Outcome.next.inj (ht.symm.trans hv)
  exact ⟨huv, huv.views⟩

/-! ## The length field and the digest, byte by byte -/

/-- Four adjacent bytes of a number, the upper first, as one word. -/
theorem wordBE_extractLsb' {n : Nat} (x : BitVec n) (lo : Nat) :
    wordBE (x.extractLsb' (lo + 24) 8) (x.extractLsb' (lo + 16) 8) (x.extractLsb' (lo + 8) 8) (x.extractLsb' lo 8) =
      x.extractLsb' lo 32 := by
  rw [wordBE_eq_append,
    BitVec.extractLsb'_append_extractLsb'_eq_extractLsb' (start₁ := lo + 16) (len₁ := 8) rfl,
    BitVec.extractLsb'_append_extractLsb'_eq_extractLsb' (start₁ := lo + 8) (len₁ := 8) rfl,
    BitVec.extractLsb'_append_extractLsb'_eq_extractLsb' (start₁ := lo) (len₁ := 8) rfl]

/-- Settles O41: words 14 and 15 are read from bytes 56 to 59 and 60 to 63. -/
theorem lengthFieldWords : Obligations.LengthFieldWords := by
  intro B len hB
  constructor
  · rw [schedule_getD_of_lt B (by decide), hB 0 (by decide), hB 1 (by decide), hB 2 (by decide), hB 3 (by decide)]
    exact wordBE_extractLsb' len 32
  · rw [schedule_getD_of_lt B (by decide), hB 4 (by decide), hB 5 (by decide), hB 6 (by decide), hB 7 (by decide)]
    exact wordBE_extractLsb' len 0

/-- R88: a word of the digest, most significant byte first. -/
theorem splitBE_word (w : Word) :
    splitBE 4 w.toNat = [w.extractLsb' 24 8, w.extractLsb' 16 8, w.extractLsb' 8 8, w.extractLsb' 0 8] :=
  rfl

/-- Settles O44: byte `j` of each word, in the list of the twenty. -/
theorem serialisedBytes : Obligations.SerialisedBytes := by
  intro S
  simp only [ser, List.flatMap_cons, List.flatMap_nil, splitBE_word]
  refine ⟨rfl, fun j hj => ?_⟩
  match j, hj with
  | 0, _ | 1, _ | 2, _ | 3, _ => exact ⟨rfl, rfl, rfl, rfl, rfl⟩

/-! ## The digest of a whole message -/

/-- R90: the padding fills the last block up to its length field, or the block behind it. -/
theorem padZeros_eq (n : Nat) : padZeros n = if n % 64 ≤ 55 then 55 - n % 64 else 119 - n % 64 := by
  rw [padZeros]
  split_ifs <;> omega

/-- R90: `Pad(M)` is a whole number of blocks. -/
theorem pad_length (M : List Byte) : (pad M).length = 64 * ((M.length + 8) / 64 + 1) := by
  have hlen : (pad M).length = M.length + 1 + padZeros M.length + 8 := by
    simp [pad]; omega
  rw [hlen, padZeros_eq]
  split_ifs <;> omega

/-- R90: `Pad(M)` begins with `M`. -/
theorem pad_eq_append (M : List Byte) :
    pad M = M ++ ([terminator] ++ List.replicate (padZeros M.length) 0x00 ++ splitBE 8 (8 * M.length)) := by
  rw [pad, List.append_assoc, List.append_assoc, List.append_assoc]

/-- R90: byte `n + i` of `Pad(M)`, behind the `n` bytes of `M`. -/
theorem pad_getD_add (M : List Byte) (i : Nat) : (pad M).getD (M.length + i) 0 =
    if i = 0 then terminator else if i ≤ padZeros M.length then 0
    else (splitBE 8 (8 * M.length)).getD (i - (padZeros M.length + 1)) 0 := by
  rw [pad_eq_append, List.getD_append_right _ _ _ _ (Nat.le_add_right _ _), Nat.add_sub_cancel_left]
  rcases i with - | i
  · rfl
  · rw [if_neg (Nat.succ_ne_zero i), List.append_assoc, List.singleton_append, List.getD_cons_succ]
    split_ifs with hi
    · rw [List.getD_append _ _ _ _ (by simpa using hi)]
      simp
    · rw [List.getD_append_right _ _ _ _ (by simp; omega), List.length_replicate, Nat.add_sub_add_right]

namespace HoldsBytes

variable {M : List Byte} {s : State}

/-- The bytes of `Pad(M)` from the last block boundary of `M` on, in the terms of the core that holds `M`; the length
field stands at offset `e`. -/
theorem pad_getD (h : HoldsBytes M s) {e i : Nat} (he : s.cnt.toNat + padZeros M.length + 1 = e) (hi : i < e + 8) :
    (pad M).getD (64 * (M.length / 64) + i) 0 =
      if i < s.cnt.toNat then s.byteAt i else if i = s.cnt.toNat then terminator
      else if i < e then 0 else s.len.extractLsb' (8 * (e + 7 - i)) 8 := by
  have hcnt := h.cnt
  split_ifs with hpend hterm hzero
  · rw [pad_eq_append, List.getD_append _ _ _ _ (by omega), List.getD_eq_getElem?_getD, h.pending i (by omega)]
    rfl
  · rw [show 64 * (M.length / 64) + i = M.length + 0 by omega, pad_getD_add, if_pos rfl]
  · rw [show 64 * (M.length / 64) + i = M.length + (i - s.cnt.toNat) by omega, pad_getD_add, if_neg (by omega),
      if_pos (by omega)]
  · rw [show 64 * (M.length / 64) + i = M.length + (i - s.cnt.toNat) by omega, pad_getD_add, if_neg (by omega),
      if_neg (by omega), splitBE_getD _ _ _ (by omega), ← h.len,
      show 8 - 1 - (i - s.cnt.toNat - (padZeros M.length + 1)) = e + 7 - i by omega]
    rfl

/-- Where the length field stands behind the last block boundary of `M`: in the next block or the one after it. -/
theorem lengthField_offset (h : HoldsBytes M s) :
    s.cnt.toNat + padZeros M.length + 1 = if s.cnt.toNat ≤ 55 then 56 else 120 := by
  have hc := s.cnt.isLt
  rw [padZeros_eq, ← h.cnt]
  split_ifs <;> omega

/-- With at most 55 pending bytes the sole frame is the block of `Pad(M)` behind the full blocks of `M`. -/
theorem blockAt_pad_one (h : HoldsBytes M s) (hc : s.cnt.toNat ≤ 55) :
    blockAt (pad M) (M.length / 64) = soleFrame s := by
  have he := h.lengthField_offset
  rw [if_pos hc] at he
  refine Vector.ext fun i hi => ?_
  rw [blockAt, Vector.getElem_ofFn, blockBytes, h.pad_getD he (by omega), soleFrame, Vector.getElem_ofFn]
  rfl

/-- With at least 56, the two frames are the two blocks behind them. -/
theorem blockAt_pad_two (h : HoldsBytes M s) (hc : 56 ≤ s.cnt.toNat) :
    blockAt (pad M) (M.length / 64) = firstFrame s ∧ blockAt (pad M) (M.length / 64 + 1) = lastFrame s := by
  have he := h.lengthField_offset
  rw [if_neg (by omega)] at he
  have hlt := s.cnt.isLt
  constructor
  · refine Vector.ext fun i hi => ?_
    rw [blockAt, Vector.getElem_ofFn, blockBytes, h.pad_getD he (by omega), firstFrame, Vector.getElem_ofFn,
      if_pos (c := i < 120) (by omega)]
    rfl
  · refine Vector.ext fun i hi => ?_
    rw [blockAt, Vector.getElem_ofFn, blockBytes,
      show 64 * (M.length / 64 + 1) + i = 64 * (M.length / 64) + (64 + i) by omega, h.pad_getD he (by omega),
      if_neg (by omega), if_neg (by omega), lastFrame, Vector.getElem_ofFn]
    dsimp only
    by_cases hi56 : i < 56
    · rw [if_pos hi56, if_pos (by omega)]
    · rw [if_neg hi56, if_neg (by omega), show 120 + 7 - (64 + i) = 63 - i by omega]

/-- R90: `FINAL` leaves in `H` the fold of `Compress` over the blocks of `Pad(M)`. -/
theorem finalEffect_chain (h : HoldsBytes M s) :
    (finalEffect s).h = chainBlocks iv (pad M) ((pad M).length / blockBytes) := by
  have hcnt := h.cnt
  have hfull : chainBlocks iv (pad M) (M.length / 64) = s.h := by
    rw [h.chain, pad_eq_append, chainBlocks_append iv (Nat.mul_div_le M.length 64)]
  rw [pad_length, blockBytes, Nat.mul_div_cancel_left _ (by decide)]
  by_cases hc : s.cnt.toNat ≤ 55
  · rw [finalEffect_h_one hc, show (M.length + 8) / 64 = M.length / 64 by omega, chainBlocks, hfull,
      h.blockAt_pad_one hc]
  · have hc' : 56 ≤ s.cnt.toNat := by omega
    obtain ⟨hfirst, hlast⟩ := h.blockAt_pad_two hc'
    rw [finalEffect_h_two hc', show (M.length + 8) / 64 = M.length / 64 + 1 by omega, chainBlocks, chainBlocks, hfull,
      hfirst, hlast]

/-- R88, R90: the digest after `FINAL`. -/
theorem finalEffect_digest (h : HoldsBytes M s) : (finalEffect s).digest = some (hashMsg M) := by
  rw [State.digest_of_valid _ (finalEffect_phase s) ((finalEffect_fault s).trans h.fault), h.finalEffect_chain, hashMsg]

end HoldsBytes

/-- Settles O52: the commands lead to the live state of `M`, and `FINAL` folds the rest of `Pad(M)` into it. -/
theorem hashOfMessage : Obligations.HashOfMessage := by
  intro s start cs M rest hs hcs hm hi
  rw [commandInputs_append, List.append_assoc] at hi
  obtain ⟨t, hsteps, ht, hti⟩ := steps_holdsBytes hs hcs hm hi
  have hv := ht.setInputs rest
  have hfinal : step t = .next (finalEffect (t.setInputs rest)) :=
    (step_of_command hti (decode_encode .final)).trans (exec_final_of_accumulating hv.fault hv.phase)
  refine ⟨pad_length M, _, ?_, (finalEffect_fault _).trans hv.fault, finalEffect_phase _, hv.finalEffect_digest,
    finalEffect_inputs _⟩
  rw [show cs.length + 2 = cs.length + 1 + 1 from rfl, steps_add hsteps, steps_succ hfinal, steps]

/-! ## The chunks of a message -/

section
variable {s t : State}

/-- While accumulating `UPD0` does nothing, on a frozen core too. -/
theorem exec_upd0_eq_self (hp : s.phase = .accumulating) : exec .upd0 s = .next s := by
  by_cases hf : s.fault = .none
  · exact exec_upd0_of_accumulating hf hp
  · exact exec_of_frozen hf

/-- `ABSORB` never leaves the phase. -/
theorem exec_absorb_phase {b : Byte} (h : exec (.absorb b) s = .next t) : t.phase = s.phase := by
  by_cases hf : s.fault = .none
  · exact (exec_absorb_phase_fault hf h).1
  · rw [Host.Outcome.next.inj ((exec_of_frozen hf).symm.trans h)]

/-- The block boundary test does not depend on the input to come. -/
theorem advanceCount_setInputs (s : State) (v : List Input) :
    advanceCount (s.setInputs v) = (advanceCount s).setInputs v := by
  by_cases hc : s.cnt = 63
  · rw [advanceCount_of_eq hc, advanceCount_of_eq (s := s.setInputs v) hc, State.compressBuf_setInputs,
      State.setCnt_setInputs]
  · rw [advanceCount_of_ne hc, advanceCount_of_ne (s := s.setInputs v) hc, State.setInputs_cnt,
      State.setCnt_setInputs]

/-- What `ABSORB` does to an accumulating core does not depend on the input to come. -/
theorem exec_absorb_setInputs {b : Byte} (hp : s.phase = .accumulating) (h : exec (.absorb b) s = .next t)
    (v : List Input) : exec (.absorb b) (s.setInputs v) = .next (t.setInputs v) := by
  by_cases hf : s.fault = .none
  · by_cases hl : s.len = lenMax
    · obtain rfl := Host.Outcome.next.inj ((exec_absorb_of_lenMax hf hp hl b).symm.trans h)
      exact exec_absorb_of_lenMax (s := s.setInputs v) hf hp hl b
    · obtain rfl := Host.Outcome.next.inj ((exec_absorb_of_accumulating hf hp hl b).symm.trans h)
      rw [exec_absorb_of_accumulating (s := s.setInputs v) hf hp hl b, ← advanceCount_setInputs]
      rfl
  · obtain rfl := Host.Outcome.next.inj ((exec_of_frozen hf).symm.trans h)
    exact exec_of_frozen (s := s.setInputs v) hf

/-- R82: commands of which some are `UPD0` and the others absorb `bytes` do what the `ABSORB`s alone do: by induction
on the commands, the state being any that accumulates. -/
theorem steps_of_upd0_absorb {cs : List Instr} {bytes : List Byte} {rest : List Input}
    (hcs : (cs.filter fun i => decide (i ≠ .upd0)) = bytes.map .absorb) (hp : s.phase = .accumulating) :
    steps cs.length (s.setInputs (commandInputs cs ++ rest)) =
      steps bytes.length (s.setInputs (commandInputs (bytes.map .absorb) ++ rest)) := by
  induction cs generalizing s bytes with
  | nil =>
    obtain rfl : bytes = [] := List.map_eq_nil_iff.1 hcs.symm
    rfl
  | cons c cs ih =>
    have hstep (is : List Instr) : step (s.setInputs (commandInputs (c :: is) ++ rest)) =
        exec c (s.setInputs (commandInputs is ++ rest)) := step_of_command rfl (decode_encode c)
    by_cases hc : c = .upd0
    · subst hc
      rw [List.length_cons, steps_succ ((hstep cs).trans (exec_upd0_eq_self (s := s.setInputs _) hp))]
      exact ih hcs hp
    · rw [List.filter_cons_of_pos (by simpa using hc)] at hcs
      obtain ⟨b, bytes, rfl, rfl, hbytes⟩ := List.map_eq_cons_iff.1 hcs.symm
      obtain ⟨t, ht⟩ := exec_total (.absorb b) s
      rw [List.length_cons, List.length_cons, List.map_cons,
        steps_succ ((hstep _).trans (exec_absorb_setInputs hp ht _)),
        steps_succ ((hstep _).trans (exec_absorb_setInputs hp ht _))]
      exact ih hbytes.symm ((exec_absorb_phase ht).trans hp)

end

/-- R54: without its `UPD0` an `update` is the `ABSORB`s of its bytes. -/
theorem updateOp_filter (bytes : List Byte) :
    ((updateOp bytes).filter fun i => decide (i ≠ .upd0)) = bytes.map .absorb := by
  simp [updateOp]

/-- R54: without their `UPD0`s the `update`s of the chunks are the `ABSORB`s of the message. -/
theorem updateOps_filter (chunks : List (List Byte)) :
    ((chunks.flatMap updateOp).filter fun i => decide (i ≠ .upd0)) = chunks.flatten.map .absorb := by
  rw [List.filter_flatMap]
  simp only [updateOp_filter, List.map_flatten, List.flatMap_def]

/-- Settles O54: both sides are the `ABSORB`s of the message. -/
theorem chunkingInvariance : Obligations.ChunkingInvariance := fun s chunks _ hp =>
  (steps_of_upd0_absorb (s := s) (updateOps_filter chunks) hp).trans
    (steps_of_upd0_absorb (s := s) (updateOp_filter chunks.flatten) hp).symm

end Sys2Proof.Machine

/-! # Exceptions (spec/60_exceptions.md)

The frozen core, the order of the fault tests, what the fault entry writes, and the longest message. -/

namespace Sys2Proof.Machine

/-! ## The frozen core -/

section
variable {s t : State}

/-- R107: a step of a frozen core keeps `FAULT`, or takes a reset that clears it. -/
theorem step_fault_of_frozen (hf : s.fault ≠ .none) (h : step s = .next t) :
    t.fault = s.fault ∨ (t.fault = .none ∧ ∃ rest, s.inputs = .reset :: rest) := by
  rcases step_cases h with ⟨-, rfl⟩ | ⟨rest, hi, rfl⟩ | ⟨c, rest, hi, -⟩
  · exact .inl rfl
  · exact .inr ⟨rfl, rest, hi⟩
  · obtain rfl := Host.Outcome.next.inj ((step_of_frozen hf hi).symm.trans h)
    exact .inl rfl

/-- R107: a frozen core ignores any number of commands. -/
theorem steps_of_frozen {cs : List Instr} {rest : List Input} (hf : s.fault ≠ .none)
    (hi : s.inputs = commandInputs cs ++ rest) : steps cs.length s = .next (s.setInputs rest) := by
  induction cs generalizing s with
  | nil =>
    obtain rfl : s.inputs = rest := hi
    rfl
  | cons c cs ih =>
    rw [List.length_cons, steps_succ (step_of_frozen hf hi)]
    exact ih (s := s.setInputs _) hf rfl

end

/-- Settles O12: a command, a command word, and any step of a frozen core. -/
theorem frozenUntilReset : Obligations.FrozenUntilReset :=
  ⟨fun _ _ hf => exec_of_frozen hf, fun _ _ _ hf hi => step_of_frozen hf hi,
    fun _ _ hf h => step_fault_of_frozen hf h⟩

/-! ## The order of the fault tests -/

/-- Settles O13: `FAULT` as the rows of the phase table (R89) give it for each command, after the frozen test and
the test for an illegal word, which come before any command runs. -/
theorem faultTestsInOrder : Obligations.FaultTestsInOrder := by
  intro s t c rest hi hstep
  have hexec {i : Instr} (hd : decode c = .command i) : exec i (s.setInputs rest) = .next t :=
    (step_of_command hi hd).symm.trans hstep
  have misuses {i : Instr} (hne : i ≠ .init) (hd : decode c = .command i) (hf : s.fault = .none)
      (hp : s.phase = .finalized) : t.fault = .misuse :=
    (exec_finalized_phase_fault (s := s.setInputs rest) (hexec hd) hne hf hp).2
  refine ⟨fun hf => ?frozen, fun hf ⟨why, hd⟩ => ?illegal, fun hf hd => ?init, fun hf hd hp => ?misuse,
    fun hf ⟨b, hd⟩ hp hl => ?lenOvf, fun hf ⟨b, hd⟩ hp hl => ?absorbed, fun hf hd hp => ?completed⟩
  case frozen =>
    obtain rfl := Host.Outcome.next.inj ((step_of_frozen hf hi).symm.trans hstep)
    rfl
  case illegal =>
    obtain rfl := Host.Outcome.next.inj ((step_of_illegal hf hi hd).symm.trans hstep)
    rfl
  case init => exact (exec_init_phase_fault (s := s.setInputs rest) hf (hexec hd)).2
  case misuse =>
    rcases hd with hd | ⟨b, hd⟩ | hd
    · exact misuses (i := .upd0) nofun hd hf hp
    · exact misuses (i := .absorb b) nofun hd hf hp
    · exact misuses (i := .final) nofun hd hf hp
  case lenOvf =>
    obtain ⟨-, -, hovf, -⟩ := exec_absorb_phase_fault (s := s.setInputs rest) hf (hexec hd)
    exact hovf hp hl
  case absorbed =>
    obtain ⟨-, hnone, -, -⟩ := exec_absorb_phase_fault (s := s.setInputs rest) hf (hexec hd)
    exact hnone hp hl
  case completed =>
    rcases hd with hd | hd
    · obtain ⟨-, hnone, -⟩ := exec_upd0_phase_fault (s := s.setInputs rest) hf (hexec hd)
      exact hnone hp
    · obtain ⟨-, hnone, -⟩ := exec_final_phase_fault (s := s.setInputs rest) hf (hexec hd)
      exact hnone hp

/-! ## The fault entry -/

section
variable {s t : State}

/-- R104: a command that changes `FAULT` changes nothing else. -/
theorem exec_eq_raiseFault {i : Instr} (h : exec i s = .next t) (hne : t.fault ≠ s.fault) :
    t = raiseFault t.fault s := by
  rcases exec_cases h with ⟨-, rfl⟩ | ⟨-, ⟨-, rfl⟩ | ⟨-, -, rfl⟩ |
    ⟨-, ⟨-, rfl⟩ | ⟨-, rfl⟩ | ⟨b, -, ⟨-, rfl⟩ | ⟨-, rfl⟩⟩⟩⟩
  · exact absurd rfl hne
  · exact absurd (initEffect_fault s) hne
  · rfl
  · exact absurd rfl hne
  · exact absurd (finalEffect_fault s) hne
  · rfl
  · exact absurd (by simp) hne

/-- R104: a step that raises a fault takes a command word and writes `FAULT` alone. -/
theorem step_eq_raiseFault (hf : s.fault = .none) (h : step s = .next t) (hne : t.fault ≠ .none) :
    ∃ c rest, s.inputs = .cmd c :: rest ∧ t = raiseFault t.fault (s.setInputs rest) := by
  rcases step_cases h with ⟨-, rfl⟩ | ⟨rest, -, rfl⟩ | ⟨c, rest, hi, ⟨why, -, rfl⟩ | ⟨i, -, he⟩⟩
  · exact absurd hf hne
  · exact absurd (applyReset_fault _) hne
  · rw [illegalWord, ifLive_of_none (s := s.setInputs rest) hf]
    exact ⟨c, rest, hi, rfl⟩
  · exact ⟨c, rest, hi, exec_eq_raiseFault he fun heq => hne (heq.trans hf)⟩

/-- `DV` is 0 on a frozen core. -/
theorem State.digestValid_of_frozen (hf : s.fault ≠ .none) : s.digestValid = false :=
  Bool.eq_false_iff.2 fun hv => hf (s.digestValid_iff.1 hv).2

end

/-- Settles O14: the step is the fault entry, and the views of a frozen core. -/
theorem faultEntryWritesOnlyFault : Obligations.FaultEntryWritesOnlyFault := by
  intro s t hf h hne
  rw [State.status_faultField, State.status_bit_three]
  refine ⟨step_eq_raiseFault hf h hne, ?_, State.digestValid_of_frozen hne, State.digest_of_frozen hne⟩
  cases hx : t.fault with
  | none => exact absurd hx hne
  | misuse => exact .inl ⟨rfl, rfl⟩
  | lenOvf => exact .inr (.inl ⟨rfl, rfl⟩)
  | illegal => exact .inr (.inr ⟨rfl, rfl⟩)

/-! ## The longest message -/

/-- R102: every byte of `2^64 - 8` above the least significant one is `FF`. -/
theorem lenMax_byte {k : Nat} (h1 : 1 ≤ k) (h7 : k ≤ 7) : BitVec.ofNat 8 (lenMax.toNat >>> (8 * k)) = 0xFF := by
  interval_cases k <;> rfl

/-- Settles O23: the test of `ABSORB`, and the length field as the end of the last frame. -/
theorem longestMessage : Obligations.LongestMessage := by
  refine fun s hf hp => ⟨fun hl => ⟨fun b => exec_absorb_of_lenMax hf hp hl b, _, exec_final_of_accumulating hf hp,
    (finalEffect_fault s).trans hf, finalEffect_phase s, fun i hi => ?_, ?_⟩, fun hl b =>
    ⟨_, exec_absorb_of_accumulating hf hp hl b, by simp [hf], by simp⟩⟩
  · rw [finalEffect_byteAt, if_pos (by omega), hl]
    exact lenMax_byte (by omega) (by omega)
  · rw [finalEffect_byteAt, if_pos (by omega), hl]
    rfl

/-! ## A message that is too long -/

namespace HoldsBytes

variable {m : List Byte} {s : State}

/-- At `2^61 - 1` bytes `LEN` is at its largest. -/
theorem len_eq_lenMax (h : HoldsBytes m s) (hm : m.length + 1 = 2 ^ 61) : s.len = lenMax :=
  BitVec.eq_of_toNat_eq (by rw [h.len, show lenMax.toNat = 18446744073709551608 from rfl]; omega)

/-- R102: after `2^61 - 1` bytes one more raises `LEN_OVF`, and what follows it is ignored. -/
theorem steps_overflow (h : HoldsBytes m s) (hm : m.length + 1 = 2 ^ 61) {b : Byte} {cs : List Instr}
    {rest : List Input} (hi : s.inputs = commandInputs (.absorb b :: cs) ++ rest) :
    steps (cs.length + 1) s = .next (raiseFault .lenOvf (s.setInputs rest)) := by
  have hv := h.setInputs (commandInputs cs ++ rest)
  have hovf : step s = .next (raiseFault .lenOvf (s.setInputs (commandInputs cs ++ rest))) :=
    (step_of_command hi (decode_encode (.absorb b))).trans
      (exec_absorb_of_lenMax hv.fault hv.phase (hv.len_eq_lenMax hm) b)
  have hfrozen : (raiseFault .lenOvf (s.setInputs (commandInputs cs ++ rest))).fault ≠ .none := nofun
  rw [steps_succ hovf, steps_of_frozen hfrozen rfl]
  rfl

end HoldsBytes

/-- The commands of a message, with any `UPD0` between its bytes, cut at one of the bytes. -/
theorem commands_split {cs : List Instr} {m l : List Byte} {b : Byte}
    (h : (cs.filter fun i => decide (i ≠ .upd0)) = (m ++ b :: l).map .absorb) :
    ∃ cs₁ cs₂, cs = cs₁ ++ .absorb b :: cs₂ ∧ (cs₁.filter fun i => decide (i ≠ .upd0)) = m.map .absorb := by
  rw [List.map_append, List.map_cons, List.filter_eq_append_iff] at h
  obtain ⟨cs₁, cs', rfl, h₁, h'⟩ := h
  obtain ⟨us, cs₂, rfl, hus, -, -⟩ := List.filter_eq_cons_iff.1 h'
  refine ⟨cs₁ ++ us, cs₂, (List.append_assoc ..).symm, ?_⟩
  rw [List.filter_append, h₁, List.filter_eq_nil_iff.2 hus, List.append_nil]

/-- Settles O53: the first `2^61 - 1` bytes lead to the longest `LEN`, the next byte raises `LEN_OVF`, and the frozen
core ignores all the rest. -/
theorem overlongMessageFaults : Obligations.OverlongMessageFaults := by
  intro s start cs M rest hs hcs hM hi
  obtain ⟨m, b, l, rfl, hm⟩ : ∃ m b l, M = m ++ b :: l ∧ m.length + 1 = 2 ^ 61 := by
    have hlt : 2 ^ 61 - 1 < M.length := by omega
    refine ⟨M.take (2 ^ 61 - 1), M[2 ^ 61 - 1], M.drop (2 ^ 61 - 1 + 1), ?_, ?_⟩
    · rw [← List.drop_eq_getElem_cons hlt, List.take_append_drop]
    · rw [List.length_take]; omega
  obtain ⟨cs₁, cs₂, rfl, hcs₁⟩ := commands_split hcs
  obtain ⟨u, hsteps, hu, hui⟩ := steps_holdsBytes (cs := cs₁)
    (rest := commandInputs (.absorb b :: (cs₂ ++ [.final])) ++ rest) hs hcs₁ (by omega) (by rw [hi]; simp)
  refine ⟨_, ?_, raiseFault_fault .lenOvf (u.setInputs rest), State.digest_of_frozen nofun⟩
  have hlen : (cs₁ ++ .absorb b :: cs₂).length + 2 = (cs₁.length + 1) + ((cs₂ ++ [Instr.final]).length + 1) := by
    simp only [List.length_append, List.length_cons, List.length_nil]; omega
  rw [hlen, steps_add hsteps, hu.steps_overflow hm hui]

end Sys2Proof.Machine

/-! # Reset (spec/70_reset_and_hazards.md)

The reset event from any state, and where it differs from `INIT`. -/

namespace Sys2Proof.Machine

/-- R120: of the steps of a frozen core, only one that takes a reset clears `FAULT`. -/
theorem inputs_eq_reset_of_fault_cleared {s t : State} (hf : s.fault ≠ .none) (h : step s = .next t)
    (ht : t.fault = .none) : ∃ rest, s.inputs = .reset :: rest := by
  rcases step_fault_of_frozen hf h with hkept | ⟨-, hreset⟩
  · exact absurd (hkept.symm.trans ht) hf
  · exact hreset

/-- Settles O16: the step applies the reset event, whose fields are read off, and a frozen core leaves its fault by
nothing else. -/
theorem resetEventResetsLiveState : Obligations.ResetEventResetsLiveState :=
  ⟨fun s rest hi => ⟨_, step_of_reset hi, applyReset_h _, applyReset_cnt _, applyReset_len _, applyReset_phase _,
    applyReset_fault _, applyReset_inputs (s.setInputs rest), fun _ => rfl⟩,
    fun _ _ => inputs_eq_reset_of_fault_cleared⟩

/-- R124: on an unfrozen core `INIT` leaves the live state that the reset event leaves; no byte of `BUF` is live in
either. -/
theorem initEffect_liveEq_applyReset {s : State} (hf : s.fault = .none) : LiveEq (initEffect s) (applyReset s) :=
  { initEffect_liveEq_reset hf with pending := fun i hi => absurd hi (Nat.not_lt_zero i) }

/-- Settles O18: the reset event does not look at `FAULT`; `INIT` takes its effect on an unfrozen core and is ignored
by a frozen one. -/
theorem resetAgainstInit : Obligations.ResetAgainstInit := by
  intro s rest
  by_cases hf : s.fault = .none
  · have hinit : step { s with inputs := .cmd 0x0100 :: rest } = .next (initEffect (s.setInputs rest)) :=
      (step_of_command rfl (decode_encode .init)).trans (exec_init_of_unfrozen hf)
    exact ⟨_, _, hinit, step_of_reset rfl, applyReset_fault _,
      fun _ => initEffect_liveEq_applyReset (s := s.setInputs rest) hf, fun hne => absurd hf hne⟩
  · have hignored : step { s with inputs := .cmd 0x0100 :: rest } = .next (s.setInputs rest) :=
      step_of_frozen hf rfl
    exact ⟨_, _, hignored, step_of_reset rfl, applyReset_fault _, fun h => absurd h hf, fun _ => rfl⟩

end Sys2Proof.Machine

/-! # Whole-machine rules (spec/10_state.md, spec/20_memory.md, spec/30_encoding.md)

The invariant over a step, the words and their commands, what a step writes beside `FAULT`, the frames of the four
commands, `MemWrite` and `MemRead`, and the canonical form of the buffer. -/

namespace Sys2Proof.Machine

/-! ## The invariant -/

section
variable {s t : State}

/-- The input to come does not matter. -/
theorem setInputs_inv (h : Inv s) (v : List Input) : Inv (s.setInputs v) :=
  ⟨h.bufCanonical, h.liveBytesStored, h.lenWholeBytes, h.cntFollowsLen, h.cntAfterFinal, h.misuseFinalized,
    h.lenOvfAtMax⟩

/-- After the reset event nothing is stored, counted or raised. -/
theorem applyReset_inv (s : State) : Inv (applyReset s) where
  bufCanonical := rfl
  liveBytesStored _ hi := absurd hi (Nat.not_lt_zero _)
  lenWholeBytes := rfl
  cntFollowsLen _ := by simp
  cntAfterFinal := nofun
  misuseFinalized := nofun
  lenOvfAtMax := nofun

/-- The fault entry keeps the invariant when the cause is raised where it can stand (R101, R102). -/
theorem raiseFault_inv {x : FaultCode} (h : Inv s) (hmisuse : x = .misuse → s.phase = .finalized)
    (hlenOvf : x = .lenOvf → s.phase = .accumulating ∧ s.len = lenMax) : Inv (raiseFault x s) :=
  { h with misuseFinalized := hmisuse, lenOvfAtMax := hlenOvf }

theorem illegalWord_inv (h : Inv s) : Inv (illegalWord s) := by
  by_cases hf : s.fault = .none
  · rw [illegalWord, ifLive_of_none hf]
    exact raiseFault_inv h nofun nofun
  · rwa [illegalWord, ifLive_of_frozen hf]

theorem initEffect_inv (h : Inv s) (hf : s.fault = .none) : Inv (initEffect s) where
  bufCanonical := h.bufCanonical
  liveBytesStored _ hi := absurd hi (Nat.not_lt_zero _)
  lenWholeBytes := rfl
  cntFollowsLen _ := by simp
  cntAfterFinal := nofun
  misuseFinalized hm := absurd (hf.symm.trans hm) nofun
  lenOvfAtMax hm := absurd (hf.symm.trans hm) nofun

/-- Once the next byte is stored, one byte more of `BUF` has been written. -/
theorem storeMessageByte_read_isSome (h : Inv s) (b : Byte) {i : Nat} (hi : i ≤ s.cnt.toNat) :
    (Memory.read (storeMessageByte b s).buf i).isSome = true := by
  rw [storeMessageByte_buf, Memory.read_write]
  split_ifs with he
  · rfl
  · exact h.liveBytesStored i (by omega)

/-- R114: `CNT` stays the byte count modulo 64. -/
theorem cnt_add_one_follows_len (h : Inv s) (hp : s.phase = .accumulating) (hl : s.len ≠ lenMax) :
    (s.cnt + 1).toNat = (s.len + 8).toNat / 8 % 64 := by
  have hcnt := h.cntFollowsLen hp
  rw [len_add_eight_toNat h.lenWholeBytes hl, BitVec.toNat_add, hcnt, Nat.add_div_right _ (by decide)]
  exact Nat.mod_add_mod _ 64 1

theorem absorb_inv (h : Inv s) (hf : s.fault = .none) (hp : s.phase = .accumulating) (hl : s.len ≠ lenMax)
    (b : Byte) : Inv (advanceCount (storeMessageByte b s)) where
  bufCanonical := by
    rw [advanceCount_buf, storeMessageByte_buf]
    exact Memory.wf_write b h.bufCanonical s.cnt.isLt
  liveBytesStored i hi := by
    rw [advanceCount_cnt, storeMessageByte_cnt] at hi
    rw [advanceCount_buf]
    exact storeMessageByte_read_isSome h b (by bv_omega)
  lenWholeBytes := by
    rw [advanceCount_len, storeMessageByte_len, len_add_eight_toNat h.lenWholeBytes hl, Nat.add_mod_right]
    exact h.lenWholeBytes
  cntFollowsLen _ := by
    rw [advanceCount_cnt, advanceCount_len, storeMessageByte_cnt, storeMessageByte_len]
    exact cnt_add_one_follows_len h hp hl
  cntAfterFinal := by simp [hp]
  misuseFinalized := by simp [hf]
  lenOvfAtMax := by simp [hf]

theorem finalEffect_inv (h : Inv s) (hf : s.fault = .none) : Inv (finalEffect s) where
  bufCanonical := finalEffect_wf h.bufCanonical
  liveBytesStored i hi := absurd hi (by simp)
  lenWholeBytes := by rw [finalEffect_len]; exact h.lenWholeBytes
  cntFollowsLen := by simp
  cntAfterFinal _ := finalEffect_cnt s
  misuseFinalized := by simp
  lenOvfAtMax := by simp [hf]

/-- A command, by what it can do. -/
theorem exec_inv {i : Instr} (h : Inv s) (he : exec i s = .next t) : Inv t := by
  rcases exec_cases he with ⟨-, rfl⟩ | ⟨hf, ⟨-, rfl⟩ | ⟨-, hp, rfl⟩ |
    ⟨hp, ⟨-, rfl⟩ | ⟨-, rfl⟩ | ⟨b, -, ⟨hl, rfl⟩ | ⟨hl, rfl⟩⟩⟩⟩
  · exact h
  · exact initEffect_inv h hf
  · exact raiseFault_inv h (fun _ => hp) nofun
  · exact h
  · exact finalEffect_inv h hf
  · exact raiseFault_inv h nofun fun _ => ⟨hp, hl⟩
  · exact absorb_inv h hf hp hl b

end

/-- Settles O49: by the input that the step takes; a command is `exec_inv`. -/
theorem stepKeepsInvariant : Obligations.StepKeepsInvariant := by
  intro s t h hstep
  rcases step_cases hstep with ⟨-, rfl⟩ | ⟨rest, -, rfl⟩ | ⟨c, rest, -, ⟨why, -, rfl⟩ | ⟨i, -, he⟩⟩
  · exact h
  · exact applyReset_inv _
  · exact illegalWord_inv (setInputs_inv h rest)
  · exact exec_inv (setInputs_inv h rest) he

/-- Settles O48: the reset state differs from one the reset event leaves in the number of resets alone. -/
theorem resetMeetsInvariant : Obligations.ResetMeetsInvariant :=
  { applyReset_inv State.reset with }

/-! ## Words and commands -/

/-- The two checks on the fields of a word refuse exactly the classes of R49. -/
theorem wf_iff_not_illegal {c : CmdWord} : CmdWord.wf c = true ↔ ¬ ∃ why, decode c = .illegal why := by
  rw [decode_illegal_iff_fields]
  simp only [CmdWord.wf, CmdWord.opAssigned, CmdWord.dataAllowed, Bool.and_eq_true, Bool.or_eq_true,
    decide_eq_true_eq, beq_iff_eq]
  omega

/-- Settles O5: the checks refuse the illegal words, and every other word is a command. -/
theorem wellFormedWordsAreCommands : Obligations.WellFormedWordsAreCommands := fun _ => by
  rw [wf_iff_not_illegal, decode_illegal_iff, not_not]

/-- Settles O1: the legal words are encodings; the illegal ones are evaluated. -/
theorem decodeOfListedWords : Obligations.DecodeOfListedWords :=
  ⟨decode_encode .init, decode_encode .upd0, decode_encode (.absorb 0x00), decode_encode (.absorb 0x61),
    decode_encode (.absorb 0x80), decode_encode (.absorb 0xFF), decode_encode .final, by decide⟩

/-- R54: the words of an `update`. -/
theorem updateOp_words (bytes : List Byte) :
    (Line.update bytes).words = 0x0200 :: bytes.map fun b => encode (.absorb b) :=
  congrArg (encode .upd0 :: ·) List.map_map

/-- R56: the words of a `hash` are those of its three parts. -/
theorem hashOp_words (M : List Byte) :
    (Line.hash M).words = Line.new.words ++ (Line.update M).words ++ Line.finalize.words := by
  simp only [Line.words, hashOp, List.map_append]

/-- Settles O6: `update` and `hash` are lemmas of their own, and the words are counted part by part. -/
theorem pseudoOperationsExpand : Obligations.PseudoOperationsExpand := by
  refine ⟨fun _ => rfl, rfl, rfl, updateOp_words, hashOp_words, fun M => ?_⟩
  rw [hashOp_words, updateOp_words]
  simp [Line.words, newOp, finalizeOp]

/-- The host's number of a command word gives that word back. -/
@[simp] theorem tableWord_toNat (c : CmdWord) : tableWord 16 c.toNat = c := by
  rw [tableWord, Nat.mod_eq_of_lt c.isLt, BitVec.ofNat_toNat, BitVec.setWidth_eq]

/-! ## Steps -/

/-- Settles O7: the equation of a step on a command word. -/
theorem stepRunsDecodedCommand : Obligations.StepRunsDecodedCommand := fun _ _ _ _ hi hd =>
  step_of_command hi hd

/-- Settles O8: the placed word is the command's encoding, and taking it leaves the inputs that were there. -/
theorem placedWordRunsNext : Obligations.PlacedWordRunsNext := by
  intro s i
  rw [State.withFetchWord, tableWord_toNat, step_of_command rfl (decode_encode i), issueFirst,
    State.setInputs_setInputs, State.setInputs_self]

/-- Settles O10: the equation of a step without an input. -/
theorem idleInstanceHoldsState : Obligations.IdleInstanceHoldsState := fun _ hi => step_of_idle hi

/-! ## What is written beside `FAULT` -/

/-- The commands that complete and may write more than `FAULT`, with the state that each leaves (R81, R83, R84). -/
inductive TakesEffect (s : State) : Instr → State → Prop where
  | init (hf : s.fault = .none) : TakesEffect s .init (initEffect s)
  | absorb (b : Byte) (hf : s.fault = .none) (hp : s.phase = .accumulating) (hl : s.len ≠ lenMax) :
      TakesEffect s (.absorb b) (advanceCount (storeMessageByte b s))
  | final (hf : s.fault = .none) (hp : s.phase = .accumulating) : TakesEffect s .final (finalEffect s)

section
variable {s t : State} {i : Instr}

/-- A command writes nothing but `FAULT`, or takes its effect. -/
theorem exec_fault_or_effect (h : exec i s = .next t) : t = raiseFault t.fault s ∨ TakesEffect s i t := by
  rcases exec_cases h with ⟨-, rfl⟩ | ⟨hf, ⟨rfl, rfl⟩ | ⟨-, -, rfl⟩ |
    ⟨hp, ⟨-, rfl⟩ | ⟨rfl, rfl⟩ | ⟨b, rfl, ⟨-, rfl⟩ | ⟨hl, rfl⟩⟩⟩⟩
  · exact .inl rfl
  · exact .inr (.init hf)
  · exact .inl rfl
  · exact .inl rfl
  · exact .inr (.final hf hp)
  · exact .inl rfl
  · exact .inr (.absorb b hf hp hl)

theorem illegalWord_eq_raiseFault (s : State) : illegalWord s = raiseFault (illegalWord s).fault s := by
  by_cases hf : s.fault = .none
  · rw [illegalWord, ifLive_of_none hf]; rfl
  · rw [illegalWord, ifLive_of_frozen hf]; rfl

/-- A step takes one input and writes nothing else but `FAULT`, or applies a reset, or a command takes its effect. -/
theorem step_fault_or_effect (h : step s = .next t) :
    t = raiseFault t.fault (s.setInputs s.inputs.tail) ∨
    (∃ rest, s.inputs = .reset :: rest ∧ t = applyReset (s.setInputs rest)) ∨
    ∃ c rest i, s.inputs = .cmd c :: rest ∧ decode c = .command i ∧ TakesEffect (s.setInputs rest) i t := by
  rcases step_cases h with ⟨hi, rfl⟩ | hreset | ⟨c, rest, hi, ⟨why, -, rfl⟩ | ⟨i, hd, he⟩⟩
  · refine .inl ?_
    rw [hi, List.tail_nil, ← hi]; rfl
  · exact .inr (.inl hreset)
  · refine .inl ?_
    rw [hi]
    exact illegalWord_eq_raiseFault _
  · rcases exec_fault_or_effect he with hfault | heffect
    · exact .inl (by rw [hi]; exact hfault)
    · exact .inr (.inr ⟨c, rest, i, hi, hd, heffect⟩)

theorem TakesEffect.inputs (h : TakesEffect s i t) : t.inputs = s.inputs := by
  cases h <;> simp

theorem TakesEffect.resets (h : TakesEffect s i t) : t.resets = s.resets := by
  cases h <;> simp

/-- No command counts a reset. -/
theorem exec_resets (h : exec i s = .next t) : t.resets = s.resets := by
  rcases exec_fault_or_effect h with hfault | heffect
  · rw [hfault, raiseFault_resets]
  · exact heffect.resets

/-- R11: which commands write `H`. -/
theorem TakesEffect.of_h_ne (h : TakesEffect s i t) (hne : t.h ≠ s.h) : s.fault = .none ∧
    (i = .init ∨ (s.phase = .accumulating ∧ (i = .final ∨ (s.cnt = 63 ∧ ∃ b, i = .absorb b)))) := by
  cases h with
  | init hf => exact ⟨hf, .inl rfl⟩
  | final hf hp => exact ⟨hf, .inr ⟨hp, .inl rfl⟩⟩
  | absorb b hf hp =>
    by_cases hc : s.cnt = 63
    · exact ⟨hf, .inr ⟨hp, .inr ⟨hc, b, rfl⟩⟩⟩
    · exact absurd (by rw [advanceCount_of_ne (s := storeMessageByte b s) hc, State.setCnt_h, storeMessageByte_h]) hne

/-- R14: what a command does to `LEN`, as a number. -/
theorem TakesEffect.len (h : TakesEffect s i t) (hI : Inv s) :
    t.len.toNat = s.len.toNat ∨ t.len.toNat = s.len.toNat + 8 ∨ (t.len = 0 ∧ i = .init) := by
  cases h with
  | init => exact .inr (.inr ⟨rfl, rfl⟩)
  | absorb b _ _ hl =>
    rw [advanceCount_len, storeMessageByte_len]
    exact .inr (.inl (len_add_eight_toNat hI.lenWholeBytes hl))
  | final => rw [finalEffect_len]; exact .inl rfl

end

/-- Settles O11: every way a step can go takes the first input. -/
theorem inputsTakenInOrder : Obligations.InputsTakenInOrder := by
  intro s t h
  rcases step_fault_or_effect h with hfault | ⟨rest, hi, rfl⟩ | ⟨c, rest, i, hi, -, heffect⟩
  · rw [hfault, raiseFault_inputs, State.setInputs_inputs]
  · rw [hi]; rfl
  · rw [heffect.inputs, hi]; rfl

/-- Settles O46: the fault entry leaves `H`, and of the effects `TakesEffect.of_h_ne` says which write it. -/
theorem stateWordsWrittenOnly : Obligations.StateWordsWrittenOnly := by
  intro s t h hne
  rcases step_fault_or_effect h with hfault | ⟨rest, hi, -⟩ | ⟨c, rest, i, hi, hd, heffect⟩
  · exact absurd (by rw [hfault, raiseFault_h, State.setInputs_h]) hne
  · exact .inl ⟨rest, hi⟩
  · obtain ⟨hf, hcmd⟩ := heffect.of_h_ne hne
    refine .inr ⟨c, rest, hi, hf, ?_⟩
    simp only [hd, Decoded.command.injEq]
    exact hcmd

/-- Settles O47: the fault entry leaves `LEN`, a reset clears it, and the effects are `TakesEffect.len`. -/
theorem lengthNeverWraps : Obligations.LengthNeverWraps := by
  intro s t hI h
  rcases step_fault_or_effect h with hfault | ⟨rest, hi, rfl⟩ | ⟨c, rest, i, hi, hd, heffect⟩
  · rw [hfault]; exact .inl rfl
  · exact .inr (.inr ⟨rfl, .inl ⟨rest, hi⟩⟩)
  · rcases heffect.len (setInputs_inv hI rest) with hkept | hadded | ⟨hzero, rfl⟩
    · exact .inl hkept
    · exact .inr (.inl hadded)
    · exact .inr (.inr ⟨hzero, .inr ⟨c, rest, hi, hd⟩⟩)

/-! ## The frames of the commands -/

section
variable {s : State}

/-- What lies outside the bytes stored reads as before. -/
theorem read_writeBytes_of_outside {i a : Nat} {vs : List Byte} (h : a < i ∨ i + vs.length ≤ a) :
    Memory.read (s.writeBytes i vs).buf a = Memory.read s.buf a := by
  rw [State.writeBytes_buf, Memory.read_writeAll, if_neg (by omega)]

theorem read_zeroFill_of_outside {lo hi a : Nat} (hl : lo ≤ hi) (h : a < lo ∨ hi ≤ a) :
    Memory.read (s.zeroFill lo hi).buf a = Memory.read s.buf a :=
  read_writeBytes_of_outside (by rw [List.length_replicate]; omega)

/-- R34: the padding stores behind the pending bytes, or anywhere in `BUF` when two frames are needed. -/
theorem read_padToLength_of_outside {n a : Nat} (hn : n ≤ 64) (h : (n ≤ 56 ∧ a < n - 1) ∨ 64 ≤ a) :
    Memory.read (padToLength n s).buf a = Memory.read s.buf a := by
  have hterm : Memory.read (s.writeBytes (n - 1) [terminator]).buf a = Memory.read s.buf a :=
    read_writeBytes_of_outside (by rw [List.length_singleton]; omega)
  by_cases hp : n ≤ padLimit
  · rw [padToLength, if_pos hp, read_zeroFill_of_outside hp (by rw [padLimit]; omega), hterm]
  · have ha : 64 ≤ a := by rw [padLimit] at hp; omega
    rw [padToLength, if_neg hp, read_zeroFill_of_outside (by decide) (.inr (by rw [padLimit]; omega)),
      State.compressBuf_buf, read_zeroFill_of_outside (hi := blockBytes) hn (.inr ha), hterm]

/-- R34: `FINAL` stores to `CNT .. 63`, or to `0 .. 63` when two frames are needed. -/
theorem read_finalEffect_of_outside {a : Nat} (h : (s.cnt.toNat ≤ 55 ∧ a < s.cnt.toNat) ∨ 64 ≤ a) :
    Memory.read (finalEffect s).buf a = Memory.read s.buf a := by
  have hc := s.cnt.isLt
  simp only [finalEffect, State.setPhase_buf, State.setCnt_buf, State.compressBuf_buf, State.memWrite]
  rw [read_writeBytes_of_outside (by rw [splitBE_length, padLimit]; omega),
    read_padToLength_of_outside (by omega) (by omega)]

/-- R34: `ABSORB` stores to index `CNT` alone. -/
theorem read_absorb_of_ne (b : Byte) {a : Nat} (h : a ≠ s.cnt.toNat) :
    Memory.read (advanceCount (storeMessageByte b s)).buf a = Memory.read s.buf a := by
  rw [advanceCount_buf, storeMessageByte_buf, Memory.read_write, if_neg h]

end

/-- Settles O24: `INIT` is ignored or takes its effect, which stores nothing; `UPD0` writes no more than `FAULT`. -/
theorem initUpd0Frame : Obligations.InitUpd0Frame := by
  refine fun s t => ⟨fun h => ?init, fun h => ?upd0⟩
  case init =>
    by_cases hf : s.fault = .none
    · obtain rfl := Host.Outcome.next.inj ((exec_init_of_unfrozen hf).symm.trans h)
      exact ⟨rfl, rfl, rfl, fun _ => rfl⟩
    · obtain rfl := Host.Outcome.next.inj ((exec_of_frozen hf).symm.trans h)
      exact ⟨rfl, rfl, rfl, fun _ => rfl⟩
  case upd0 =>
    rcases exec_fault_or_effect h with hfault | heffect
    · rw [hfault]
      exact ⟨rfl, rfl, rfl, rfl, rfl, rfl, fun _ => rfl⟩
    · exact nomatch heffect

/-- Settles O25: a clause per field, each by the fault entry or the effect. -/
theorem absorbFrame : Obligations.AbsorbFrame := by
  refine fun s t b h => ⟨exec_absorb_phase h, exec_inputs h, exec_resets h, fun hc => ?words, fun a ha => ?bytes,
    exec_eq_raiseFault h⟩
  case words =>
    rcases exec_fault_or_effect h with hfault | heffect
    · rw [hfault, raiseFault_h]
    · by_contra hne
      obtain ⟨-, hinit | ⟨-, hfinal | ⟨hboundary, -⟩⟩⟩ := heffect.of_h_ne hne
      · exact nomatch hinit
      · exact nomatch hfinal
      · exact hc hboundary
  case bytes =>
    rcases exec_fault_or_effect h with hfault | heffect
    · rw [hfault, raiseFault_buf]
    · cases heffect
      exact read_absorb_of_ne b ha

/-- Settles O26: a clause per field, each by the fault entry or the effect. -/
theorem finalFrame : Obligations.FinalFrame := by
  refine fun s t h => ⟨?length, exec_inputs h, exec_resets h, fun a ha => ?bytes, exec_eq_raiseFault h⟩
  case length =>
    rcases exec_fault_or_effect h with hfault | heffect
    · rw [hfault, raiseFault_len]
    · cases heffect
      exact finalEffect_len s
  case bytes =>
    rcases exec_fault_or_effect h with hfault | heffect
    · rw [hfault, raiseFault_buf]
    · cases heffect
      exact read_finalEffect_of_outside ha

/-! ## `MemWrite` and `MemRead` -/

/-- R30: the last byte is the least significant one. -/
theorem joinBE_concat (bytes : List Byte) (b : Byte) : joinBE (bytes ++ [b]) = joinBE bytes * 256 + b.toNat := by
  rw [joinBE, List.foldl_append]; rfl

/-- The image of `n + 1` bytes is that of the upper `n` and the least significant byte. -/
theorem splitBE_succ (n v : Nat) : splitBE (n + 1) v = splitBE n (v / 256) ++ [BitVec.ofNat 8 v] := by
  rw [splitBE, List.range_succ, List.map_append, List.map_singleton, splitBE]
  congr 1
  · refine List.map_congr_left fun j hj => ?_
    have hj' := List.mem_range.1 hj
    rw [show 8 * (n + 1 - 1 - j) = 8 + 8 * (n - 1 - j) by omega, Nat.shiftRight_add, Nat.shiftRight_eq_div_pow v 8]
  · simp

/-- R30: an image read back is the number, as far as its `n` bytes reach. -/
theorem joinBE_splitBE (n v : Nat) : joinBE (splitBE n v) = v % 2 ^ (8 * n) := by
  induction n generalizing v with
  | zero => rw [Nat.mul_zero, Nat.pow_zero, Nat.mod_one]; rfl
  | succ n ih =>
    have hpow : 2 ^ (8 * (n + 1)) = 256 * 2 ^ (8 * n) := by rw [Nat.mul_succ, Nat.pow_add, Nat.mul_comm]
    rw [splitBE_succ, joinBE_concat, ih, BitVec.toNat_ofNat, hpow, Nat.mod_mul]
    omega

/-- The bytes that `MemWrite` leaves from index `i` on are the image. -/
theorem memWrite_bytes (s : State) (i n v : Nat) :
    ((List.range n).map fun j => (s.memWrite i n v).byteAt (i + j)) = splitBE n v := by
  refine List.map_congr_left fun j hj => ?_
  have hj' := List.mem_range.1 hj
  rw [State.byteAt_memWrite, if_pos (by omega), Nat.add_sub_cancel_left]

/-- Settles O38: the bytes inside and outside the range, and the image read back. -/
theorem memWriteThenMemRead : Obligations.MemWriteThenMemRead := by
  refine fun s i n v => ⟨fun j hj => ?_, fun a ha => ?_, ?_⟩
  · rw [State.byteAt_memWrite, if_pos (by omega), Nat.add_sub_cancel_left, Nat.shiftRight_eq_div_pow,
      Nat.sub_right_comm]
  · rw [State.byteAt_memWrite, if_neg (by omega)]
  · rw [State.memRead, memWrite_bytes, joinBE_splitBE]

/-- Byte `k` of the block in `BUF`. -/
@[simp] theorem State.block_getElem (s : State) {k : Nat} (hk : k < 64) : s.block[k] = s.byteAt k :=
  Vector.getElem_ofFn ..

/-- Settles O39: both sides are the same four bytes, the first weighing `2^24`. -/
theorem scheduleReadsBuffer : Obligations.ScheduleReadsBuffer := by
  intro s t ht
  have hread : s.memRead (4 * t) 4 =
      joinBE [s.byteAt (4 * t), s.byteAt (4 * t + 1), s.byteAt (4 * t + 2), s.byteAt (4 * t + 3)] := rfl
  rw [schedule_getD_of_lt s.block ht, wordBE_toNat, hread]
  simp only [State.block_getElem, joinBE, List.foldl]
  omega

/-! ## The canonical form of the buffer -/

namespace Memory

variable {a lo j : Nat} {v : Byte} {m n : Memory}

theorem read_head : read ((a, v) :: m) a = some v :=
  if_pos rfl

theorem read_tail (h : j ≠ a) : read ((a, v) :: m) j = read m j :=
  if_neg h.symm

theorem rising_tail (h : rising lo ((a, v) :: m) = true) : rising (a + 1) m = true := by
  rw [rising, Bool.and_eq_true] at h
  exact h.2

/-- The first cell has the lowest index that is listed. -/
theorem head_le_of_read (h : rising lo ((a, v) :: m) = true) (hj : read ((a, v) :: m) j ≠ none) : a ≤ j := by
  by_contra hlt
  rw [read_tail (by omega), read_eq_none_of_lt (rising_tail h) (by omega)] at hj
  exact hj rfl

/-- Contents with rising indices are determined by what they read: by induction on the cells, the lower bound being
general. -/
theorem eq_of_read_eq (hm : rising lo m = true) (hn : rising lo n = true) (h : ∀ i, read m i = read n i) : m = n := by
  induction m generalizing lo n with
  | nil =>
    cases n with
    | nil => rfl
    | cons q n => exact nomatch (h q.1).trans read_head
  | cons p m ih =>
    obtain ⟨a, v⟩ := p
    cases n with
    | nil => exact nomatch read_head.symm.trans (h a)
    | cons q n =>
      obtain ⟨b, w⟩ := q
      obtain rfl : a = b := Nat.le_antisymm (head_le_of_read hm (by rw [h b, read_head]; nofun))
        (head_le_of_read hn (by rw [← h a, read_head]; nofun))
      obtain rfl : v = w := Option.some.inj (read_head.symm.trans ((h a).trans read_head))
      have htails (i : Nat) : read m i = read n i := by
        by_cases hi : i = a
        · rw [read_eq_none_of_lt (rising_tail hm) (by omega), read_eq_none_of_lt (rising_tail hn) (by omega)]
        · rw [← read_tail hi, h i, read_tail hi]
      rw [ih (rising_tail hm) (rising_tail hn) htails]

end Memory

/-- Settles O40: the canonical form is rising indices from 0. -/
theorem canonicalBuffersAreEqual : Obligations.CanonicalBuffersAreEqual := fun _ _ hm hn h =>
  Memory.eq_of_read_eq hm hn h

end Sys2Proof.Machine
